-- ==== Sys2Proof/Word.lean ====
section
/-! DEFINITION. The value types of the machine (spec 00_scope.md R8, R9): every value is an unsigned
integer of a stated width. -/

namespace Sys2Proof

/-- An 8-bit value: a general register, a timer, a byte of memory (R20). -/
abbrev Byte := BitVec 8

/-- A 16-bit value: an instruction word, the program counter, the index register, a stack entry (R20). -/
abbrev Word := BitVec 16

/-- A 12-bit address immediate, the field `nnn` (R91). -/
abbrev Addr12 := BitVec 12

/-- A register index, the field `x` or `y`: V0..VF (R21, R93). -/
abbrev Reg := Fin 16

/-- A key index 0..15 (R29). -/
abbrev Key := Fin 16

/-- `VF`, the flag register: `V[15]` (R22). -/
abbrev VF : Reg := 15

end Sys2Proof
end

