-- ==== Sys2Proof/Syntax.lean ====
section
/-! DEFINITION. The 34 instructions, one constructor per row of spec/opcode_table.json, in the order of
spec 30_encoding.md R96. -/

namespace Sys2Proof

/-- An instruction with its operand fields (R91). Registers are indices 0..15, `kk` is an 8-bit and `nnn`
a 12-bit immediate, `n` is the number of sprite rows (at most 15 when well formed). -/
inductive Instr where
  /-- `CLS` (R171). -/
  | cls
  /-- `RET` (R130). -/
  | ret
  /-- `JP addr` (R131). -/
  | jp (nnn : Addr12)
  /-- `CALL addr` (R132). -/
  | call (nnn : Addr12)
  /-- `SE Vx, byte` (R133). -/
  | seByte (x : Reg) (kk : Byte)
  /-- `SE Vx, Vy` (R134). -/
  | seReg (x y : Reg)
  /-- `SNE Vx, byte` (R135). -/
  | sneByte (x : Reg) (kk : Byte)
  /-- `SNE Vx, Vy` (R136). -/
  | sneReg (x y : Reg)
  /-- `LD Vx, byte` (R141). -/
  | ldByte (x : Reg) (kk : Byte)
  /-- `LD Vx, Vy` (R142). -/
  | ldReg (x y : Reg)
  /-- `ADD Vx, byte` (R143). -/
  | addByte (x : Reg) (kk : Byte)
  /-- `ADD Vx, Vy` (R144). -/
  | addReg (x y : Reg)
  /-- `OR Vx, Vy` (R145). -/
  | orReg (x y : Reg)
  /-- `AND Vx, Vy` (R146). -/
  | andReg (x y : Reg)
  /-- `XOR Vx, Vy` (R147). -/
  | xorReg (x y : Reg)
  /-- `SUB Vx, Vy` (R148). -/
  | subReg (x y : Reg)
  /-- `SUBN Vx, Vy` (R150). -/
  | subnReg (x y : Reg)
  /-- `SHR Vx`, with the `y` field that the shift quirk reads (R149). -/
  | shr (x y : Reg)
  /-- `SHL Vx`, with the `y` field that the shift quirk reads (R151). -/
  | shl (x y : Reg)
  /-- `LD I, addr` (R161). -/
  | ldI (nnn : Addr12)
  /-- `JP V0, addr` (R137). -/
  | jpV0 (nnn : Addr12)
  /-- `RND Vx, byte` (R152). -/
  | rnd (x : Reg) (kk : Byte)
  /-- `DRW Vx, Vy, n` (R172). -/
  | drw (x y : Reg) (n : Nat)
  /-- `SKP Vx` (R181). -/
  | skp (x : Reg)
  /-- `SKNP Vx` (R182). -/
  | sknp (x : Reg)
  /-- `LD Vx, DT` (R183). -/
  | ldVxDt (x : Reg)
  /-- `LD DT, Vx` (R185). -/
  | ldDtVx (x : Reg)
  /-- `LD ST, Vx` (R186). -/
  | ldStVx (x : Reg)
  /-- `LD Vx, K` (R184). -/
  | ldVxK (x : Reg)
  /-- `ADD I, Vx` (R162). -/
  | addI (x : Reg)
  /-- `LD F, Vx` (R163). -/
  | ldF (x : Reg)
  /-- `LD B, Vx` (R166). -/
  | ldB (x : Reg)
  /-- `LD [I], Vx` (R164). -/
  | storeRegs (x : Reg)
  /-- `LD Vx, [I]` (R165). -/
  | loadRegs (x : Reg)
deriving DecidableEq, Repr

end Sys2Proof
end

