-- ==== Sys2Proof/WellFormed.lean ====
section
/-! DEFINITION. Which terms of Instr are instructions of the machine. Register indices and immediates
carry their bounds in their types; the one check left is the sprite height of DRW. -/

namespace Sys2Proof

/-- Well-formedness: the row count of DRW is a 4-bit immediate, "n ∈ [0,15]" (R93, R172). Every other
operand is bounded by its type. [DESIGN CHOICE, log entry 11] -/
def Instr.wellFormed : Instr → Bool
  | .drw _ _ n => n ≤ 15
  | .cls | .ret | .jp _ | .call _ | .seByte _ _ | .seReg _ _ | .sneByte _ _ | .sneReg _ _ | .ldByte _ _
  | .ldReg _ _ | .addByte _ _ | .addReg _ _ | .orReg _ _ | .andReg _ _ | .xorReg _ _ | .subReg _ _
  | .subnReg _ _ | .shr _ _ | .shl _ _ | .ldI _ | .jpV0 _ | .rnd _ _ | .skp _ | .sknp _ | .ldVxDt _
  | .ldDtVx _ | .ldStVx _ | .ldVxK _ | .addI _ | .ldF _ | .ldB _ | .storeRegs _ | .loadRegs _ => true

end Sys2Proof
end

