-- ==== Sys2Proof/Decode.lean ====
section
/-! DEFINITION. The decoder (spec 30_encoding.md R91, R94, R106), total on all words and all byte lists, and
after it the encoder, written from the rows of R96. -/

namespace Sys2Proof

/-- Why a byte list is no instruction. -/
inductive DecodeError where
  /-- Fewer than the two bytes every instruction has (R90). -/
  | tooFewBytes
  /-- A word that matches no row of the opcode map (R106). -/
  | illegalWord (w : Word)
deriving DecidableEq, Repr

/-- The leading nibble `w[15:12]` (R91). -/
def fieldOp (w : Word) : Nat := w.toNat / 4096

/-- The register field `x = w[11:8]` (R91). -/
def fieldX (w : Word) : Reg := Fin.ofNat 16 (w.toNat / 256)

/-- The register field `y = w[7:4]` (R91). -/
def fieldY (w : Word) : Reg := Fin.ofNat 16 (w.toNat / 16)

/-- The trailing nibble `n = w[3:0]` (R91). -/
def fieldN (w : Word) : Nat := w.toNat % 16

/-- The trailing byte `kk = w[7:0]` (R91). -/
def fieldKK (w : Word) : Byte := BitVec.ofNat 8 w.toNat

/-- The address immediate `nnn = w[11:0]` (R91). -/
def fieldNNN (w : Word) : Addr12 := BitVec.ofNat 12 w.toNat

/-- Big-endian: the byte at the lower address is the high byte (R67, R90). -/
def wordOfBytes (hi lo : Byte) : Word := BitVec.ofNat 16 (hi.toNat * 256 + lo.toNat)

/-- Family 0x8, by the trailing nibble (R94). -/
def decodeFamily8 (w : Word) : Except DecodeError Instr :=
  match fieldN w with
  | 0x0 => .ok (.ldReg (fieldX w) (fieldY w))
  | 0x1 => .ok (.orReg (fieldX w) (fieldY w))
  | 0x2 => .ok (.andReg (fieldX w) (fieldY w))
  | 0x3 => .ok (.xorReg (fieldX w) (fieldY w))
  | 0x4 => .ok (.addReg (fieldX w) (fieldY w))
  | 0x5 => .ok (.subReg (fieldX w) (fieldY w))
  | 0x6 => .ok (.shr (fieldX w) (fieldY w))
  | 0x7 => .ok (.subnReg (fieldX w) (fieldY w))
  | 0xE => .ok (.shl (fieldX w) (fieldY w))
  | _ => .error (.illegalWord w)

/-- Family 0xF, by the trailing byte (R94). -/
def decodeFamilyF (w : Word) : Except DecodeError Instr :=
  match w.toNat % 256 with
  | 0x07 => .ok (.ldVxDt (fieldX w))
  | 0x0A => .ok (.ldVxK (fieldX w))
  | 0x15 => .ok (.ldDtVx (fieldX w))
  | 0x18 => .ok (.ldStVx (fieldX w))
  | 0x1E => .ok (.addI (fieldX w))
  | 0x29 => .ok (.ldF (fieldX w))
  | 0x33 => .ok (.ldB (fieldX w))
  | 0x55 => .ok (.storeRegs (fieldX w))
  | 0x65 => .ok (.loadRegs (fieldX w))
  | _ => .error (.illegalWord w)

/-- The decision procedure of R94: dispatch on the leading nibble, then on the trailing nibble or byte.
It is strict: the whole mask of R96 must match (R106). -/
def decode (w : Word) : Except DecodeError Instr :=
  match fieldOp w with
  | 0x0 => match w.toNat with
    | 0x00E0 => .ok .cls
    | 0x00EE => .ok .ret
    | _ => .error (.illegalWord w)
  | 0x1 => .ok (.jp (fieldNNN w))
  | 0x2 => .ok (.call (fieldNNN w))
  | 0x3 => .ok (.seByte (fieldX w) (fieldKK w))
  | 0x4 => .ok (.sneByte (fieldX w) (fieldKK w))
  | 0x5 => match fieldN w with
    | 0x0 => .ok (.seReg (fieldX w) (fieldY w))
    | _ => .error (.illegalWord w)
  | 0x6 => .ok (.ldByte (fieldX w) (fieldKK w))
  | 0x7 => .ok (.addByte (fieldX w) (fieldKK w))
  | 0x8 => decodeFamily8 w
  | 0x9 => match fieldN w with
    | 0x0 => .ok (.sneReg (fieldX w) (fieldY w))
    | _ => .error (.illegalWord w)
  | 0xA => .ok (.ldI (fieldNNN w))
  | 0xB => .ok (.jpV0 (fieldNNN w))
  | 0xC => .ok (.rnd (fieldX w) (fieldKK w))
  | 0xD => .ok (.drw (fieldX w) (fieldY w) (fieldN w))
  | 0xE => match w.toNat % 256 with
    | 0x9E => .ok (.skp (fieldX w))
    | 0xA1 => .ok (.sknp (fieldX w))
    | _ => .error (.illegalWord w)
  | _ => decodeFamilyF w

/-- The decoder on bytes: the instruction and the bytes after it (R90). -/
def decodeBytes : List Byte → Except DecodeError (Instr × List Byte)
  | hi :: lo :: rest =>
    match decode (wordOfBytes hi lo) with
    | .ok i => .ok (i, rest)
    | .error e => .error e
  | _ => .error .tooFewBytes

/-- The two bytes of a word in memory order, high byte first (R90). -/
def bytesOfWord (w : Word) : List Byte := [BitVec.ofNat 8 (w.toNat / 256), BitVec.ofNat 8 w.toNat]

/-- What the decoder reads from an instruction whose bits, as spec/opcode_table.json numbers them, are `w`;
bits above `nbits` are zero. -/
def decodeTableWord (nbits w : Nat) : Option Instr :=
  match decodeBytes (bytesOfWord (BitVec.ofNat 16 (w % 2 ^ nbits))) with
  | .ok (i, _) => some i
  | .error _ => none

/-- Format A: `oooo nnnn nnnn nnnn` (R92). -/
def formatA (op : Nat) (nnn : Addr12) : Word := BitVec.ofNat 16 (op * 4096 + nnn.toNat)

/-- Format XK: `oooo xxxx kkkk kkkk` (R92). -/
def formatXK (op : Nat) (x : Reg) (kk : Byte) : Word :=
  BitVec.ofNat 16 (op * 4096 + x.val * 256 + kk.toNat)

/-- Formats XY and XYN: `oooo xxxx yyyy nnnn` (R92). -/
def formatXYN (op : Nat) (x y : Reg) (n : Nat) : Word :=
  BitVec.ofNat 16 (op * 4096 + x.val * 256 + y.val * 16 + n)

/-- Format X: `oooo xxxx ssss ssss` (R92). -/
def formatX (op : Nat) (x : Reg) (s : Nat) : Word := BitVec.ofNat 16 (op * 4096 + x.val * 256 + s)

/-- The word of a well-formed instruction (R96). -/
def encode : Instr → Word
  | .cls => 0x00E0
  | .ret => 0x00EE
  | .jp nnn => formatA 0x1 nnn
  | .call nnn => formatA 0x2 nnn
  | .seByte x kk => formatXK 0x3 x kk
  | .seReg x y => formatXYN 0x5 x y 0x0
  | .sneByte x kk => formatXK 0x4 x kk
  | .sneReg x y => formatXYN 0x9 x y 0x0
  | .ldByte x kk => formatXK 0x6 x kk
  | .ldReg x y => formatXYN 0x8 x y 0x0
  | .addByte x kk => formatXK 0x7 x kk
  | .addReg x y => formatXYN 0x8 x y 0x4
  | .orReg x y => formatXYN 0x8 x y 0x1
  | .andReg x y => formatXYN 0x8 x y 0x2
  | .xorReg x y => formatXYN 0x8 x y 0x3
  | .subReg x y => formatXYN 0x8 x y 0x5
  | .subnReg x y => formatXYN 0x8 x y 0x7
  | .shr x y => formatXYN 0x8 x y 0x6
  | .shl x y => formatXYN 0x8 x y 0xE
  | .ldI nnn => formatA 0xA nnn
  | .jpV0 nnn => formatA 0xB nnn
  | .rnd x kk => formatXK 0xC x kk
  | .drw x y n => formatXYN 0xD x y n
  | .skp x => formatX 0xE x 0x9E
  | .sknp x => formatX 0xE x 0xA1
  | .ldVxDt x => formatX 0xF x 0x07
  | .ldDtVx x => formatX 0xF x 0x15
  | .ldStVx x => formatX 0xF x 0x18
  | .ldVxK x => formatX 0xF x 0x0A
  | .addI x => formatX 0xF x 0x1E
  | .ldF x => formatX 0xF x 0x29
  | .ldB x => formatX 0xF x 0x33
  | .storeRegs x => formatX 0xF x 0x55
  | .loadRegs x => formatX 0xF x 0x65

end Sys2Proof
end

