-- ==== Sys2Proof/Config.lean ====
section
/-! DEFINITION. What an implementation fixes at creation (spec 00_scope.md R6, R7) and the one value the
spec leaves free (R34, R152). -/

namespace Sys2Proof

/-- `ADDR_POLICY` (R7): what forming an address above 0xFFF does. -/
inductive AddrPolicy where
  /-- Reduce modulo 4096; the policy this hardware takes. -/
  | wrap
  /-- Raise the fatal error AddressRange. -/
  | fault
deriving DecidableEq, Repr

/-- The configuration, fixed at creation (R6, R7); the defaults are the spec's. -/
structure Config where
  /-- SHR and SHL shift Vy instead of Vx. -/
  shiftQuirk : Bool := false
  /-- `LD [I],Vx` and `LD Vx,[I]` increment I. -/
  memoryIncrementQuirk : Bool := false
  /-- `JP V0,addr` adds Vx, x the top nibble of the operand, instead of V0. -/
  jumpQuirk : Bool := false
  /-- The address policy. -/
  addrPolicy : AddrPolicy := .wrap
deriving DecidableEq, Repr

/-- The free value `Draw()` of RND (R34, R152): the byte the k-th draw gives. It has no body, so no
proof can see it and a statement holds for every byte. [DESIGN CHOICE, log entry 2] -/
opaque Config.draw : Nat → Byte

end Sys2Proof
end

