-- ==== Sys2Proof/Machine/State.lean ====
section
/-! DEFINITION. The state of the machine (spec 10_state.md R20), as plain data, the record a run carries (the
state with the parameter and the input that R33 says are no state), the reasons a step can stop (none is ever
raised), and the state after reset (R36). -/

namespace Sys2Proof.Machine

/-- A memory: the cells whose byte differs from the creation contents (R30), by rising address. -/
abbrev Memory := List Host.Cell

/-- The framebuffer (R31): 32 rows of 64 pixels, `fb[y][x]` the pixel at column `x`, row `y`; true is
"set". -/
abbrev Framebuffer := Vector (Vector Bool 64) 32

/-- The fatal causes, the values of `halted` other than none (R32). -/
inductive FatalCause where
  /-- `RET` with an empty call stack (R202). -/
  | stackUnderflow
  /-- `CALL` with a full call stack (R203). -/
  | stackOverflow
  /-- An address above 0xFFF under the address policy `FAULT` (R204). -/
  | addressRange
deriving DecidableEq, Repr

/-- The complete state of the machine: the components of R20 and nothing else. -/
structure CoreState where
  /-- The general registers V0..VF (R21). -/
  V : Vector Byte 16
  /-- The index register (R24). -/
  I : Word
  /-- The program counter (R25). -/
  pc : Word
  /-- The call stack, the most recently pushed entry first (R27). [DESIGN CHOICE, log entry 3] -/
  stack : List Word
  /-- The delay timer (R28). -/
  DT : Byte
  /-- The sound timer (R28). -/
  ST : Byte
  /-- The key flags; true is "pressed" (R29). -/
  KEY : Vector Bool 16
  /-- The memory (R30). -/
  MEM : Memory
  /-- The framebuffer (R31). -/
  FB : Framebuffer
  /-- The halted state and its cause (R32). -/
  halted : Option FatalCause
deriving DecidableEq, Repr

/-- What a run carries: the machine's state, and beside it the two things the spec calls parameter and input, not
state (R33, R34): step takes one argument, so they travel with the state. -/
structure State extends CoreState where
  /-- The configuration (R6, R7): no step and no event changes it. [DESIGN CHOICE, log entry 1] -/
  cfg : Config
  /-- How many random bytes have been drawn (R34): the index of the next free value.
  [DESIGN CHOICE, log entry 2] -/
  draws : Nat
deriving DecidableEq, Repr

/-- The stack depth `sp` (R27). -/
abbrev State.sp (s : State) : Nat := s.stack.length

/-- The reasons a step stops with a fault: there are none. Every error of R200 has an effect the spec
gives, so the step takes it as a next state. -/
inductive Fault where
deriving DecidableEq, Repr

/-- The reasons a step gives no meaning. -/
inductive Refusal where
  /-- An instruction without a meaning, rejected by name in exec's arm; safe. No arm raises it. -/
  | notModelled (mnemonic : String)
deriving DecidableEq, Repr

/-- The outcome of an instruction or a step. -/
abbrev Result := Host.Outcome State Fault Refusal

/-- The state after creation and after reset (R36, R240, R241): every cell of memory at its creation contents.
[values other than memory: DESIGN CHOICE of the spec, D9, log entry 5] -/
def CoreState.creation : CoreState where
  V := Vector.replicate 16 0
  I := 0
  pc := 0x200
  stack := []
  DT := 0
  ST := 0
  KEY := Vector.replicate 16 false
  MEM := []
  FB := Vector.replicate 32 (Vector.replicate 64 false)
  halted := none

/-- A machine created with configuration `c` (R240), before any random byte is drawn. -/
def State.create (c : Config) : State where
  toCoreState := CoreState.creation
  cfg := c
  draws := 0

/-- The machine right after reset, in the configuration this hardware takes: all quirks off, `WRAP`
(R6, R7, R36). -/
def State.reset : State := State.create {}

end Sys2Proof.Machine
end

