-- ==== Sys2Proof/Machine/Memory.lean ====
section
/-! DEFINITION. Memory as a canonical list of cells: the creation contents with the font (spec 20_memory.md
R62, 70_reset_and_hazards.md R243), the read and the write of one byte, and the canonical form. -/

namespace Sys2Proof.Machine

/-- The 80 bytes of the hexadecimal font, glyph by glyph (R243). -/
def fontTable : List Byte :=
  [0xF0, 0x90, 0x90, 0x90, 0xF0,  0x20, 0x60, 0x20, 0x20, 0x70] ++
  [0xF0, 0x10, 0xF0, 0x80, 0xF0,  0xF0, 0x10, 0xF0, 0x10, 0xF0] ++
  [0x90, 0x90, 0xF0, 0x10, 0x10,  0xF0, 0x80, 0xF0, 0x10, 0xF0] ++
  [0xF0, 0x80, 0xF0, 0x90, 0xF0,  0xF0, 0x10, 0x20, 0x40, 0x40] ++
  [0xF0, 0x90, 0xF0, 0x90, 0xF0,  0xF0, 0x90, 0xF0, 0x10, 0xF0] ++
  [0xF0, 0x90, 0xF0, 0x90, 0x90,  0xE0, 0x90, 0xE0, 0x90, 0xE0] ++
  [0xF0, 0x80, 0x80, 0x80, 0xF0,  0xE0, 0x90, 0x90, 0x90, 0xE0] ++
  [0xF0, 0x80, 0xF0, 0x80, 0xF0,  0xF0, 0x80, 0xF0, 0x80, 0x80]

/-- `FONT_BASE` (R5): the address of glyph 0. -/
def fontBase : Nat := 0x050

/-- What an address that no cell lists reads as: the creation contents, the font at 0x050..0x09F and zero
everywhere else (R30, R36, R62). [DESIGN CHOICE, log entry 9] -/
def Memory.background (a : Nat) : Byte :=
  if 0x050 ≤ a ∧ a ≤ 0x09F then fontTable.getD (a - 0x050) 0 else 0

/-- The byte at address `a` (R71). -/
def Memory.read : Memory → Nat → Byte
  | [], a => Memory.background a
  | (k, b) :: rest, a => if k = a then b else Memory.read rest a

/-- The memory without a cell for `a`, which then reads as its creation contents. -/
def Memory.erase (m : Memory) (a : Nat) : Memory := m.filter (fun c => c.1 != a)

/-- Put a cell before the first one with a higher address. -/
def Memory.insertCell : Memory → Nat → Byte → Memory
  | [], a, v => [(a, v)]
  | (k, b) :: rest, a, v => if a < k then (a, v) :: (k, b) :: rest else (k, b) :: Memory.insertCell rest a v

/-- Write one byte (R71); writing the creation contents lists no cell. -/
def Memory.write (m : Memory) (a : Nat) (v : Byte) : Memory :=
  if v = Memory.background a then Memory.erase m a else Memory.insertCell (Memory.erase m a) a v

/-- Write a list of (address, byte) pairs in order. -/
def Memory.writeAll : Memory → List (Nat × Byte) → Memory
  | m, [] => m
  | m, (a, v) :: rest => Memory.writeAll (Memory.write m a v) rest

/-- The canonical form: addresses below 4096 (R61), strictly rising, no cell at its creation contents. -/
def Memory.wf : Memory → Bool
  | [] => true
  | (k, b) :: rest =>
    decide (k < 4096) && (b != Memory.background k) && rest.all (fun c => decide (k < c.1)) && Memory.wf rest

end Sys2Proof.Machine
end

