-- ==== Sys2Proof/Machine/Ops.lean ====
section
/-! DEFINITION. The named operations over the state: the primitives of spec 00_scope.md R10, address
formation and memory access (20_memory.md R63, R65, R66), the call stack (10_state.md R27), fetch
(40_step_cycle.md R121), and entry to the halted state (60_exceptions.md R206), the machine's only exception
entry. There is no return from it (R207): only the reset event leaves the halted state. -/

namespace Sys2Proof.Machine

/-! ### Errors -/

/-- Taking a fatal error (R206): nothing is saved, control goes nowhere, `halted` gets the cause. -/
def State.raise (s : State) (c : FatalCause) : State := { s with halted := some c }

/-- The outcome of an instruction that forms addresses: its new state, or, where an address is out of
range, the fatal error AddressRange with none of its writes made (R66, R204). -/
def State.settle (s : State) : Except Nat State → Result
  | .ok t => .next t
  | .error _ => .next (s.raise .addressRange)

/-! ### Addresses and the program counter -/

/-- `Addr(a)` (R63): the address an access to `a` uses, or the offending unreduced address. -/
def formAddr (p : AddrPolicy) (a : Nat) : Except Nat Nat :=
  match p with
  | .wrap => .ok (a % 4096)
  | .fault => if a ≤ 0xFFF then .ok a else .error a

/-- `Addr` of every address of a list, each formed on its own (R66); the first that is out of range is the
error. -/
def formAddrs (p : AddrPolicy) : List Nat → Except Nat (List Nat)
  | [] => .ok []
  | a :: rest =>
    match formAddr p a with
    | .error e => .error e
    | .ok b =>
      match formAddrs p rest with
      | .error e => .error e
      | .ok bs => .ok (b :: bs)

/-- `a, a+1, ..., a+n-1`: the unreduced addresses of an n-byte access (R66). -/
def span (a n : Nat) : List Nat := (List.range n).map (fun k => a + k)

/-- What `SetPC(t)` stores (R65): reduced modulo 4096 under WRAP, unreduced under FAULT. The register has 16
bits; no reachable `t` exceeds them. [log entry 10] -/
def storedPc (p : AddrPolicy) (t : Nat) : Word :=
  match p with
  | .wrap => BitVec.ofNat 16 (t % 4096)
  | .fault => BitVec.ofNat 16 t

/-- `SetPC(t)` (R65). -/
def State.setPc (s : State) (t : Nat) : State := { s with pc := storedPc s.cfg.addrPolicy t }

/-- The fetch advance, `pc <- ia + 2` (R121). -/
def State.advance (s : State) : State := s.setPc (s.pc.toNat + 2)

/-- A conditional skip: `pc <- pc + 2` on the advanced `pc` (R138). -/
def State.skipIf (s : State) (c : Bool) : State := if c then s.setPc (s.pc.toNat + 2) else s

/-- The stall of `LD Vx, K`: `pc <- ia`, where `pc` holds `ia + 2` (R184). [DEDUCED, log entry 8] -/
def State.stall (s : State) : State := s.setPc (s.pc - 2).toNat

/-! ### The call stack -/

/-- `STACK_CAPACITY` (R5). -/
def stackCapacity : Nat := 16

/-- `Push(v)` (R27); none is StackOverflow. -/
def State.push (s : State) (v : Word) : Option State :=
  if stackCapacity ≤ s.sp then none else some { s with stack := v :: s.stack }

/-- `Pop()` (R27); none is StackUnderflow. -/
def State.pop (s : State) : Option (Word × State) :=
  match s.stack with
  | [] => none
  | v :: rest => some (v, { s with stack := rest })

/-! ### Memory access -/

/-- The byte of `MEM` at an address (R71). -/
def State.readByte (s : State) (a : Nat) : Byte := s.MEM.read a

/-- Write a list of (address, byte) pairs in order. -/
def State.writeCells (s : State) (cells : List (Nat × Byte)) : State :=
  { s with MEM := s.MEM.writeAll cells }

/-- `MemRead(a, n)` (R66). -/
def State.memRead (s : State) (a n : Nat) : Except Nat (List Byte) :=
  match formAddrs s.cfg.addrPolicy (span a n) with
  | .ok as => .ok (as.map s.readByte)
  | .error e => .error e

/-- `MemWrite(a, n, bytes)` with n the length of the list (R66). -/
def State.memWrite (s : State) (a : Nat) (bytes : List Byte) : Except Nat State :=
  match formAddrs s.cfg.addrPolicy (span a bytes.length) with
  | .ok as => .ok (s.writeCells (as.zip bytes))
  | .error e => .error e

/-! ### Fetch -/

/-- Fetch the word at `pc`, big-endian (R67, R121); an out-of-range byte address is the fatal error
AddressRange(ia). -/
def State.fetch (s : State) : Except Nat Word :=
  match formAddr s.cfg.addrPolicy s.pc.toNat, formAddr s.cfg.addrPolicy (s.pc.toNat + 1) with
  | .ok a0, .ok a1 => .ok (wordOfBytes (s.readByte a0) (s.readByte a1))
  | _, _ => .error s.pc.toNat

/-- Store the word `w` at the two byte addresses the next fetch reads, high byte first (R67, R121). -/
def State.storeFetchWord (s : State) (w : Word) : State :=
  s.writeCells ([s.pc.toNat % 4096, (s.pc.toNat + 1) % 4096].zip (bytesOfWord w))

/-! ### The random byte -/

/-- `Draw()` (R34, R152): the next free byte, and the state that has taken it. -/
def State.drawByte (s : State) : Byte × State := (Config.draw s.draws, { s with draws := s.draws + 1 })

end Sys2Proof.Machine
end

