-- ==== Sys2Proof/Machine/Operands.lean ====
section
/-! DEFINITION. The operand forms: registers, key selection, the shift operand, the jump offset register, the
block of registers V0..Vx, decimal digits, the font address. -/

namespace Sys2Proof.Machine

/-- `V[i]` (R10, R21). -/
def State.getV (s : State) (r : Reg) : Byte := s.V[r]

/-- `V[i] <- v` (R10, R21). -/
def State.setV (s : State) (r : Reg) (v : Byte) : State := { s with V := s.V.set r v }

/-- The key a register value selects: its low 4 bits (R180). -/
def keyOf (v : Byte) : Key := Fin.ofNat 16 v.toNat

/-- `KEY[k]` for the key that register `x` selects (R181, R182). -/
def State.keyPressed (s : State) (x : Reg) : Bool := s.KEY[keyOf (s.getV x)]

/-- The least pressed key (R184). -/
def State.leastPressed (s : State) : Option Key := (List.finRange 16).find? (fun k => s.KEY[k])

/-- The operand of SHR and SHL: Vx, or Vy with the shift quirk (R149, R151). -/
def State.shiftOperand (s : State) (x y : Reg) : Byte := if s.cfg.shiftQuirk then s.getV y else s.getV x

/-- The top nibble of the operand of `JP V0, addr`, as a register index (R93, R137). -/
def topNibble (nnn : Addr12) : Reg := Fin.ofNat 16 (nnn.toNat / 256)

/-- The offset of `JP V0, addr`: V0, or Vx with the jump quirk (R137). -/
def State.jumpOffset (s : State) (nnn : Addr12) : Byte :=
  if s.cfg.jumpQuirk then s.getV (topNibble nnn) else s.getV 0

/-- `[V[0], ..., V[x]]` (R164). -/
def State.regsUpTo (s : State) (x : Reg) : List Byte := s.V.toList.take (x.val + 1)

/-- `V[i] <- bs[i]` for the registers from index `k` upward (R165). -/
def loadInto (V : Vector Byte 16) (k : Nat) : List Byte → Vector Byte 16
  | [] => V
  | b :: rest => loadInto (V.set (Fin.ofNat 16 k) b) (k + 1) rest

/-- `V[i] <- bs[i]`, from V0 upward (R165). -/
def State.setRegs (s : State) (bs : List Byte) : State := { s with V := loadInto s.V 0 bs }

/-- The optional increment of I by the number of bytes moved, reduced modulo 4096 under both address
policies (R164, R165). -/
def State.bumpI (s : State) (x : Reg) : State :=
  { s with I := if s.cfg.memoryIncrementQuirk then BitVec.ofNat 16 ((s.I.toNat + x.val + 1) % 4096) else s.I }

/-- The hundreds, tens and ones digits (R166). -/
def decimalDigits (v : Byte) : List Byte :=
  [BitVec.ofNat 8 (v.toNat / 100), BitVec.ofNat 8 (v.toNat / 10 % 10), BitVec.ofNat 8 (v.toNat % 10)]

/-- The address of the font glyph for the low 4 bits of a value, 5 bytes a glyph (R163). -/
def glyphAddr (v : Byte) : Nat := fontBase + 5 * (v.toNat % 16)

end Sys2Proof.Machine
end

