-- ==== Sys2Proof/Machine/Flags.lean ====
section
/-! DEFINITION. The flag computations (spec 10_state.md R22) and the write that stores the result first and
the flag last (R23). -/

namespace Sys2Proof.Machine

/-- The carry of an addition: the unbounded sum exceeds 255 (R144). -/
def carryOut (a b : Byte) : Bool := 255 < a.toNat + b.toNat

/-- No borrow in `a - b`: the minuend is at least the subtrahend (R148, R153). -/
def noBorrow (a b : Byte) : Bool := b.toNat ≤ a.toNat

/-- The bit SHR shifts out (R149). -/
def lowBit (v : Byte) : Bool := v.toNat % 2 = 1

/-- The bit SHL shifts out (R151). -/
def highBit (v : Byte) : Bool := v.toNat / 128 = 1

/-- A flag value is written as 0 or 1 (R22). -/
def flagByte (c : Bool) : Byte := if c then 1 else 0

/-- Write the primary result to `V[x]`, then the flag to `V[15]`, so that with `x = 15` the flag survives
(R23). -/
def State.setVFlag (s : State) (x : Reg) (v : Byte) (c : Bool) : State := (s.setV x v).setV VF (flagByte c)

end Sys2Proof.Machine
end

