-- ==== Sys2Proof/Machine/Alu.lean ====
section
/-! DEFINITION. Register load, arithmetic, logic, shift and random instructions (spec 42_alu.md R140 to
R153): operands are read from the state at the start, the result is exact and then reduced modulo 256. -/

namespace Sys2Proof.Machine

/-- `LD Vx, byte` (R141). -/
def execLdByte (x : Reg) (kk : Byte) (s : State) : Result := .next (s.setV x kk)

/-- `LD Vx, Vy` (R142). -/
def execLdReg (x y : Reg) (s : State) : Result := .next (s.setV x (s.getV y))

/-- `ADD Vx, byte` (R143): no flag. -/
def execAddByte (x : Reg) (kk : Byte) (s : State) : Result :=
  .next (s.setV x (BitVec.ofNat 8 (((s.getV x).toNat + kk.toNat) % 256)))

/-- `ADD Vx, Vy` (R144). -/
def execAddReg (x y : Reg) (s : State) : Result :=
  .next (s.setVFlag x (BitVec.ofNat 8 (((s.getV x).toNat + (s.getV y).toNat) % 256))
    (carryOut (s.getV x) (s.getV y)))

/-- `OR Vx, Vy` (R145): no flag. -/
def execOrReg (x y : Reg) (s : State) : Result := .next (s.setV x (s.getV x ||| s.getV y))

/-- `AND Vx, Vy` (R146): no flag. -/
def execAndReg (x y : Reg) (s : State) : Result := .next (s.setV x (s.getV x &&& s.getV y))

/-- `XOR Vx, Vy` (R147): no flag. -/
def execXorReg (x y : Reg) (s : State) : Result := .next (s.setV x (s.getV x ^^^ s.getV y))

/-- `(a - b) mod 256`, the least non-negative residue (R9, R153). -/
def subMod256 (a b : Byte) : Byte := BitVec.ofInt 8 (((a.toNat : Int) - (b.toNat : Int)) % 256)

/-- `SUB Vx, Vy` (R148). -/
def execSubReg (x y : Reg) (s : State) : Result :=
  .next (s.setVFlag x (subMod256 (s.getV x) (s.getV y)) (noBorrow (s.getV x) (s.getV y)))

/-- `SUBN Vx, Vy` (R150). -/
def execSubnReg (x y : Reg) (s : State) : Result :=
  .next (s.setVFlag x (subMod256 (s.getV y) (s.getV x)) (noBorrow (s.getV y) (s.getV x)))

/-- `SHR Vx` (R149). -/
def execShr (x y : Reg) (s : State) : Result :=
  .next (s.setVFlag x (BitVec.ofNat 8 ((s.shiftOperand x y).toNat / 2)) (lowBit (s.shiftOperand x y)))

/-- `SHL Vx` (R151). -/
def execShl (x y : Reg) (s : State) : Result :=
  .next (s.setVFlag x (BitVec.ofNat 8 (2 * (s.shiftOperand x y).toNat % 256)) (highBit (s.shiftOperand x y)))

/-- `RND Vx, byte` (R152): the byte drawn is a free value. [log entry 2] -/
def execRnd (x : Reg) (kk : Byte) (s : State) : Result :=
  .next (s.drawByte.2.setV x (s.drawByte.1 &&& kk))

end Sys2Proof.Machine
end

