-- ==== Sys2Proof/Machine/Control.lean ====
section
/-! DEFINITION. The control-transfer instructions (spec 41_control_flow.md R130 to R138). `pc` holds the
address of the instruction plus 2. -/

namespace Sys2Proof.Machine

/-- `RET` (R130, R202). -/
def execRet (s : State) : Result :=
  match s.pop with
  | none => .next (s.raise .stackUnderflow)
  | some (v, t) => .next (t.setPc v.toNat)

/-- `JP addr` (R131). -/
def execJp (nnn : Addr12) (s : State) : Result := .next (s.setPc nnn.toNat)

/-- `CALL addr` (R132, R203). -/
def execCall (nnn : Addr12) (s : State) : Result :=
  match s.push s.pc with
  | none => .next (s.raise .stackOverflow)
  | some t => .next (t.setPc nnn.toNat)

/-- `SE Vx, byte` (R133). -/
def execSeByte (x : Reg) (kk : Byte) (s : State) : Result := .next (s.skipIf (s.getV x == kk))

/-- `SE Vx, Vy` (R134). -/
def execSeReg (x y : Reg) (s : State) : Result := .next (s.skipIf (s.getV x == s.getV y))

/-- `SNE Vx, byte` (R135). -/
def execSneByte (x : Reg) (kk : Byte) (s : State) : Result := .next (s.skipIf (s.getV x != kk))

/-- `SNE Vx, Vy` (R136). -/
def execSneReg (x y : Reg) (s : State) : Result := .next (s.skipIf (s.getV x != s.getV y))

/-- `JP V0, addr` (R137, R204): the target goes through `Addr`. -/
def execJpV0 (nnn : Addr12) (s : State) : Result :=
  s.settle ((formAddr s.cfg.addrPolicy (nnn.toNat + (s.jumpOffset nnn).toNat)).map s.setPc)

end Sys2Proof.Machine
end

