-- ==== Sys2Proof/Machine/Display.lean ====
section
/-! DEFINITION. The display instructions and the draw engine (spec 44_display.md R170 to R173). -/

namespace Sys2Proof.Machine

/-- `FB[x][y]` (R31). -/
def Framebuffer.pixel (fb : Framebuffer) (x : Fin 64) (y : Fin 32) : Bool := fb[y][x]

/-- `FB[x][y] <- FB[x][y] XOR 1` (R172). -/
def Framebuffer.toggle (fb : Framebuffer) (x : Fin 64) (y : Fin 32) : Framebuffer :=
  fb.set y (fb[y].set x (!fb[y][x]))

/-- The blank framebuffer (R171). -/
def Framebuffer.blank : Framebuffer := Vector.replicate 32 (Vector.replicate 64 false)

/-- One pixel of a draw: a sprite bit of 1 toggles the pixel, and collides when it was set; a sprite bit of
0 does nothing (R172). The pair is the framebuffer and the collision so far. -/
def blitPixel (acc : Framebuffer × Bool) (px : Fin 64) (py : Fin 32) (bit : Bool) : Framebuffer × Bool :=
  if bit then (acc.1.toggle px py, acc.2 || acc.1.pixel px py) else acc

/-- One sprite row: bit `7 - c` of the byte is column `c`, drawn at column `(x0 + c) mod 64` (R170, R172). -/
def blitRow (acc : Framebuffer × Bool) (x0 : Nat) (py : Fin 32) (row : Byte) : Framebuffer × Bool :=
  (List.range 8).foldl (fun acc c => blitPixel acc (Fin.ofNat 64 (x0 + c)) py (row.getLsbD (7 - c))) acc

/-- The sprite rows from row `r` on, each drawn at row `(y0 + r) mod 32` (R172). -/
def blitRows (acc : Framebuffer × Bool) (x0 y0 r : Nat) : List Byte → Framebuffer × Bool
  | [] => acc
  | row :: rest => blitRows (blitRow acc x0 (Fin.ofNat 32 (y0 + r)) row) x0 y0 (r + 1) rest

/-- Draw the rows at the coordinates in Vx and Vy and store the collision in VF, after the whole sprite is
drawn (R172). -/
def State.drawSprite (s : State) (x y : Reg) (rows : List Byte) : State :=
  let drawn := blitRows (s.FB, false) (s.getV x).toNat (s.getV y).toNat 0 rows
  { s with FB := drawn.1 }.setV VF (flagByte drawn.2)

/-- `CLS` (R171). -/
def execCls (s : State) : Result := .next { s with FB := Framebuffer.blank }

/-- `DRW Vx, Vy, n` (R172, R204). -/
def execDrw (x y : Reg) (n : Nat) (s : State) : Result :=
  s.settle ((s.memRead s.I.toNat n).map (fun rows => s.drawSprite x y rows))

end Sys2Proof.Machine
end

