-- ==== Sys2Proof/Machine/IndexMemory.lean ====
section
/-! DEFINITION. Index-register and memory-transfer instructions (spec 43_index_memory.md R160 to R166). -/

namespace Sys2Proof.Machine

/-- `LD I, addr` (R161). -/
def execLdI (nnn : Addr12) (s : State) : Result := .next { s with I := BitVec.ofNat 16 nnn.toNat }

/-- `ADD I, Vx` (R162): reduced modulo 4096 under both address policies, no flag. -/
def execAddI (x : Reg) (s : State) : Result :=
  .next { s with I := BitVec.ofNat 16 ((s.I.toNat + (s.getV x).toNat) % 4096) }

/-- `LD F, Vx` (R163). -/
def execLdF (x : Reg) (s : State) : Result := .next { s with I := BitVec.ofNat 16 (glyphAddr (s.getV x)) }

/-- `LD [I], Vx` (R164, R204). -/
def execStoreRegs (x : Reg) (s : State) : Result :=
  s.settle ((s.memWrite s.I.toNat (s.regsUpTo x)).map (fun t => t.bumpI x))

/-- `LD Vx, [I]` (R165, R204). -/
def execLoadRegs (x : Reg) (s : State) : Result :=
  s.settle ((s.memRead s.I.toNat (x.val + 1)).map (fun bs => (s.setRegs bs).bumpI x))

/-- `LD B, Vx` (R166, R204). -/
def execLdB (x : Reg) (s : State) : Result := s.settle (s.memWrite s.I.toNat (decimalDigits (s.getV x)))

end Sys2Proof.Machine
end

