-- ==== Sys2Proof/Machine/KeypadTimers.lean ====
section
/-! DEFINITION. Keypad and timer instructions (spec 45_keypad_timers.md R180 to R186). -/

namespace Sys2Proof.Machine

/-- `SKP Vx` (R181). -/
def execSkp (x : Reg) (s : State) : Result := .next (s.skipIf (s.keyPressed x))

/-- `SKNP Vx` (R182). -/
def execSknp (x : Reg) (s : State) : Result := .next (s.skipIf (!s.keyPressed x))

/-- `LD Vx, DT` (R183). -/
def execLdVxDt (x : Reg) (s : State) : Result := .next (s.setV x s.DT)

/-- `LD DT, Vx` (R185). -/
def execLdDtVx (x : Reg) (s : State) : Result := .next { s with DT := s.getV x }

/-- `LD ST, Vx` (R186). -/
def execLdStVx (x : Reg) (s : State) : Result := .next { s with ST := s.getV x }

/-- `LD Vx, K` (R184): the least pressed key, or the stall that puts `pc` back. [DESIGN CHOICE, log entry 14] -/
def execLdVxK (x : Reg) (s : State) : Result :=
  match s.leastPressed with
  | some k => .next (s.setV x (BitVec.ofNat 8 k.val))
  | none => .next s.stall

end Sys2Proof.Machine
end

