-- ==== Sys2Proof/Machine/Cycle.lean ====
section
/-! DEFINITION. The fetch-decode-execute cycle (spec 40_step_cycle.md R120 to R125). -/

namespace Sys2Proof.Machine

/-- Decode and execute a fetched word in the state whose `pc` is already advanced; an illegal word changes
nothing more (R122, R123, R201). -/
def runWord (w : Word) (s : State) : Result :=
  match decode w with
  | .ok i => exec i s
  | .error _ => .next s

/-- One step (R120): halted first, then the fetch addresses, then decode, then the instruction (R125). -/
def cycle (s : State) : Result :=
  match s.halted with
  | some _ => .next s
  | none =>
    match s.fetch with
    | .error _ => .next (s.raise .addressRange)
    | .ok w => runWord w s.advance

end Sys2Proof.Machine
end

