-- ==== Sys2Proof/Machine/Step.lean ====
section
/-! DEFINITION. The step of the machine (spec 40_step_cycle.md R120) and the placing of one instruction
where the next step fetches it. -/

namespace Sys2Proof.Machine

/-- The one transition of the core (R120). -/
def step (s : State) : Host.Outcome State Fault Refusal := cycle s

/-- `s` with the instruction whose bits, as spec/opcode_table.json numbers them, are `w` (bits above
`nbits` zero) stored at the two addresses that the next fetch reads, and nothing else changed. In a state
that is halted, or whose `pc` is above 0xFFE under `FAULT`, no fetch happens. [log entry 6] -/
def State.withFetchWord (s : State) (nbits w : Nat) : State :=
  s.storeFetchWord (BitVec.ofNat 16 (w % 2 ^ nbits))

end Sys2Proof.Machine
end

