-- ==== Sys2Proof/Machine/Report.lean ====
section
/-! DEFINITION. What a step reports to the driver (spec 00_scope.md R12, 60_exceptions.md R200, R208): a value
computed from the state before the step, no part of the state. [DESIGN CHOICE, log entry 4] -/

namespace Sys2Proof.Machine

/-- The closed list of error kinds (R200). -/
inductive ErrorKind where
  /-- (a) an illegal word; non-fatal (R201). -/
  | decodeFailure
  /-- (b) `RET` with an empty stack; fatal (R202). -/
  | stackUnderflow
  /-- (c) `CALL` with a full stack; fatal (R203). -/
  | stackOverflow
  /-- (d) a ROM image that is too long; load-time, non-fatal (R205). -/
  | romOversize
  /-- (e) an address above 0xFFF under `FAULT`; fatal (R204). -/
  | addressRange
deriving DecidableEq, Repr

/-- The outcome a step returns (R12), with what it carries (R208). -/
inductive Report where
  /-- Success; a stalled `LD Vx, K` too. -/
  | ok
  /-- The illegal word and its address (R201). -/
  | decodeFailure (w ia : Word)
  /-- A fatal error, and for AddressRange the offending unreduced address (R202 to R204). -/
  | fatal (c : FatalCause) (address : Option Nat)
  /-- A step attempted while halted, with the recorded cause (R124). -/
  | halted (c : FatalCause)
deriving DecidableEq, Repr

/-- The kind of a fatal cause (R200). -/
def FatalCause.kind : FatalCause → ErrorKind
  | .stackUnderflow => .stackUnderflow
  | .stackOverflow => .stackOverflow
  | .addressRange => .addressRange

/-- The error a step's report reports, if any; `halted` repeats an earlier one and reports none (R209). -/
def Report.errorKind : Report → Option ErrorKind
  | .ok => none
  | .decodeFailure _ _ => some .decodeFailure
  | .fatal c _ => some c.kind
  | .halted _ => none

/-- The unreduced addresses an instruction forms with `Addr`, in order (R63, R70); `LD F` and `ADD I` form
none. -/
def formedAddrs (i : Instr) (s : State) : List Nat :=
  match i with
  | .jpV0 nnn => [nnn.toNat + (s.jumpOffset nnn).toNat]
  | .drw _ _ n => span s.I.toNat n
  | .ldB _ => span s.I.toNat 3
  | .storeRegs x => span s.I.toNat (x.val + 1)
  | .loadRegs x => span s.I.toNat (x.val + 1)
  | .cls | .ret | .jp _ | .call _ | .seByte _ _ | .seReg _ _ | .sneByte _ _ | .sneReg _ _ | .ldByte _ _
  | .ldReg _ _ | .addByte _ _ | .addReg _ _ | .orReg _ _ | .andReg _ _ | .xorReg _ _ | .subReg _ _
  | .subnReg _ _ | .shr _ _ | .shl _ _ | .ldI _ | .rnd _ _ | .skp _ | .sknp _ | .ldVxDt _ | .ldDtVx _
  | .ldStVx _ | .ldVxK _ | .addI _ | .ldF _ => []

/-- The first address of a list that `Addr` refuses (R63). [DEDUCED, log entry 7] -/
def offendingAddr (p : AddrPolicy) (as : List Nat) : Option Nat :=
  match formAddrs p as with
  | .ok _ => none
  | .error a => some a

/-- What executing `i` in a running state reports: success, or the fatal error it raises. -/
def execReport (i : Instr) (s : State) : Report :=
  match exec i s with
  | .next t =>
    match t.halted with
    | none => .ok
    | some c => .fatal c (offendingAddr s.cfg.addrPolicy (formedAddrs i s))
  | .fault _ => .ok
  | .refused _ => .ok

/-- What the step from `s` reports (R12, R120). -/
def stepReport (s : State) : Report :=
  match s.halted with
  | some c => .halted c
  | none =>
    match s.fetch with
    | .error a => .fatal .addressRange (some a)
    | .ok w =>
      match decode w with
      | .error _ => .decodeFailure w s.pc
      | .ok i => execReport i s.advance

end Sys2Proof.Machine
end

