-- ==== Sys2Proof/Machine/Events.lean ====
section
/-! DEFINITION. The external events between steps (spec 60_exceptions.md R214 to R217, 70_reset_and_hazards.md
R241, R246), and runs of steps and events (R258). The driver issues them, not the step.
[DESIGN CHOICE, log entry 12] -/

namespace Sys2Proof.Machine

/-- A timer counted down once, floor 0 (R215). -/
def countDown (v : Byte) : Byte := BitVec.ofNat 8 (v.toNat - 1)

/-- `tickTimers()` (R215), in every state, halted and stalled included. -/
def State.tick (s : State) : State := { s with DT := countDown s.DT, ST := countDown s.ST }

/-- `setKey(k, p)` (R216); an index above 15 is refused: none. -/
def State.setKey (s : State) (k : Nat) (p : Bool) : Option State :=
  if h : k < 16 then some { s with KEY := s.KEY.set k p } else none

/-- The display snapshot (R217): the pixels as they stand between two steps. -/
def State.snapshot (s : State) : Framebuffer := s.FB

/-- `ROM_BASE` (R5). -/
def romBase : Nat := 0x200

/-- `ROM_MAX` (R5). -/
def romMax : Nat := 3584

/-- ROM ingestion (R246); an image longer than 3584 bytes is refused, RomOversize: none (R205). -/
def State.load (s : State) (bytes : List Byte) : Option State :=
  if bytes.length ≤ romMax then some (s.writeCells ((span romBase bytes.length).zip bytes)) else none

/-- The reset event (R241): the whole state back to its value after creation. The configuration and the draw
counter, which are no state of the machine (R33), stay. [log entries 1 and 2] -/
def State.restart (s : State) : State := { s with toCoreState := CoreState.creation }

/-- The events of the interface (R214). -/
inductive Event where
  /-- One instruction. -/
  | step
  /-- `tickTimers()`. -/
  | tick
  /-- `setKey(index, pressed)`. -/
  | setKey (k : Nat) (p : Bool)
  /-- The display snapshot. -/
  | snapshot
  /-- ROM ingestion. -/
  | load (bytes : List Byte)
  /-- Reset. -/
  | reset
deriving DecidableEq, Repr

/-- What an event returns to the driver. -/
inductive EventReport where
  /-- Nothing to report. -/
  | done
  /-- A step's outcome (R12). -/
  | stepped (r : Report)
  /-- `setKey` with an index above 15 (R216). -/
  | keyRefused
  /-- The error kind RomOversize (R205). -/
  | romOversize
  /-- The pixels of a snapshot (R217). -/
  | pixels (fb : Framebuffer)
deriving DecidableEq, Repr

/-- The state after an event. -/
def Event.apply (e : Event) (s : State) : State :=
  match e with
  | .step =>
    match Sys2Proof.Machine.step s with
    | .next t => t
    | .fault _ => s
    | .refused _ => s
  | .tick => s.tick
  | .setKey k p => (s.setKey k p).getD s
  | .snapshot => s
  | .load bytes => (s.load bytes).getD s
  | .reset => s.restart

/-- What an event in state `s` returns to the driver. -/
def Event.report (e : Event) (s : State) : EventReport :=
  match e with
  | .step => .stepped (stepReport s)
  | .tick => .done
  | .setKey k p => if (s.setKey k p).isSome then .done else .keyRefused
  | .snapshot => .pixels s.snapshot
  | .load bytes => if (s.load bytes).isSome then .done else .romOversize
  | .reset => .done

/-- A run: steps and events in the order the driver issues them (R13, R258). -/
def runEvents : List Event → State → State
  | [], s => s
  | e :: rest, s => runEvents rest (e.apply s)

end Sys2Proof.Machine
end

