-- ==== Sys2Proof/Safety.lean ====
section
/-! DEFINITION. The terms claims are made in: the invariant of reachable states (spec 40_step_cycle.md R126),
the opcode map as a table (30_encoding.md R96),
what each instruction may change (10_state.md R37), the wrapped image of a sprite (44_display.md R172, R173),
and the WRAP view of a FAULT state (20_memory.md R64). -/

namespace Sys2Proof

/-- The match and mask columns of R96, in the order of its rows. -/
def opcodeRows : List (Word × Word) :=
  [(0x00E0, 0xFFFF), (0x00EE, 0xFFFF), (0x1000, 0xF000), (0x2000, 0xF000), (0x3000, 0xF000), (0x5000, 0xF00F),
   (0x4000, 0xF000), (0x9000, 0xF00F), (0x6000, 0xF000), (0x8000, 0xF00F), (0x7000, 0xF000), (0x8004, 0xF00F)] ++
  [(0x8001, 0xF00F), (0x8002, 0xF00F), (0x8003, 0xF00F), (0x8005, 0xF00F), (0x8007, 0xF00F), (0x8006, 0xF00F),
   (0x800E, 0xF00F), (0xA000, 0xF000), (0xB000, 0xF000), (0xC000, 0xF000), (0xD000, 0xF000), (0xE09E, 0xF0FF)] ++
  [(0xE0A1, 0xF0FF), (0xF007, 0xF0FF), (0xF015, 0xF0FF), (0xF018, 0xF0FF), (0xF00A, 0xF0FF), (0xF01E, 0xF0FF),
   (0xF029, 0xF0FF), (0xF033, 0xF0FF), (0xF055, 0xF0FF), (0xF065, 0xF0FF)]

/-- The row of R96 an instruction belongs to, counted from 0. -/
def Instr.row : Instr → Nat
  | .cls => 0 | .ret => 1 | .jp _ => 2 | .call _ => 3 | .seByte _ _ => 4 | .seReg _ _ => 5
  | .sneByte _ _ => 6 | .sneReg _ _ => 7 | .ldByte _ _ => 8 | .ldReg _ _ => 9 | .addByte _ _ => 10
  | .addReg _ _ => 11 | .orReg _ _ => 12 | .andReg _ _ => 13 | .xorReg _ _ => 14 | .subReg _ _ => 15
  | .subnReg _ _ => 16 | .shr _ _ => 17 | .shl _ _ => 18 | .ldI _ => 19 | .jpV0 _ => 20 | .rnd _ _ => 21
  | .drw _ _ _ => 22 | .skp _ => 23 | .sknp _ => 24 | .ldVxDt _ => 25 | .ldDtVx _ => 26 | .ldStVx _ => 27
  | .ldVxK _ => 28 | .addI _ => 29 | .ldF _ => 30 | .ldB _ => 31 | .storeRegs _ => 32 | .loadRegs _ => 33

/-- The instructions that write VF as a flag (R22). -/
def Instr.writesFlag : Instr → Bool
  | .addReg _ _ | .subReg _ _ | .subnReg _ _ | .shr _ _ | .shl _ _ | .drw _ _ _ => true
  | .cls | .ret | .jp _ | .call _ | .seByte _ _ | .seReg _ _ | .sneByte _ _ | .sneReg _ _ | .ldByte _ _
  | .ldReg _ _ | .addByte _ _ | .orReg _ _ | .andReg _ _ | .xorReg _ _ | .ldI _ | .jpV0 _ | .rnd _ _
  | .skp _ | .sknp _ | .ldVxDt _ | .ldDtVx _ | .ldStVx _ | .ldVxK _ | .addI _ | .ldF _ | .ldB _
  | .storeRegs _ | .loadRegs _ => false

end Sys2Proof

namespace Sys2Proof.Machine

/-- The font table of R243, glyph by glyph. -/
def glyphRows : List (List Byte) :=
  [[0xF0, 0x90, 0x90, 0x90, 0xF0], [0x20, 0x60, 0x20, 0x20, 0x70], [0xF0, 0x10, 0xF0, 0x80, 0xF0],
   [0xF0, 0x10, 0xF0, 0x10, 0xF0], [0x90, 0x90, 0xF0, 0x10, 0x10], [0xF0, 0x80, 0xF0, 0x10, 0xF0]] ++
  [[0xF0, 0x80, 0xF0, 0x90, 0xF0], [0xF0, 0x10, 0x20, 0x40, 0x40], [0xF0, 0x90, 0xF0, 0x90, 0xF0],
   [0xF0, 0x90, 0xF0, 0x10, 0xF0], [0xF0, 0x90, 0xF0, 0x90, 0x90], [0xE0, 0x90, 0xE0, 0x90, 0xE0]] ++
  [[0xF0, 0x80, 0x80, 0x80, 0xF0], [0xE0, 0x90, 0x90, 0x90, 0xE0], [0xF0, 0x80, 0xF0, 0x80, 0xF0],
   [0xF0, 0x80, 0xF0, 0x80, 0x80]]

/-- The largest value the program counter may hold: below 4096 under WRAP, at most 0x1002 under FAULT (R65,
R126). -/
def pcBound : AddrPolicy → Nat
  | .wrap => 0xFFF
  | .fault => 0x1002

/-- The largest value a stack entry may hold: what a CALL that could be fetched pushes (R27, R132). -/
def entryBound : AddrPolicy → Nat
  | .wrap => 0xFFF
  | .fault => 0x1000

/-- The invariant of reachable states (R126): I below 4096, at most 16 stack entries, `pc` and the stack
entries in range, memory in canonical form, and no AddressRange halt under WRAP (R204). -/
abbrev State.Inv (s : State) : Prop :=
  s.I.toNat < 4096 ∧ s.sp ≤ 16 ∧ s.pc.toNat ≤ pcBound s.cfg.addrPolicy ∧
  (∀ e ∈ s.stack, e.toNat ≤ entryBound s.cfg.addrPolicy) ∧ s.MEM.wf = true ∧
  (s.cfg.addrPolicy = .wrap → s.halted ≠ some .addressRange)

/-- The value that writing `t` to the program counter stores (R65). -/
def pcValue (p : AddrPolicy) (t : Nat) : Word :=
  if p = .wrap then BitVec.ofNat 16 (t % 4096) else BitVec.ofNat 16 t

/-- An access to the `n` bytes from I on forms only addresses in range: always under WRAP, below 4096 under
FAULT (R63, R66). -/
abbrev AccessFits (s : State) (n : Nat) : Prop :=
  s.cfg.addrPolicy = .wrap ∨ ∀ k < n, s.I.toNat + k ≤ 0xFFF

/-- The address of byte `k` of a transfer whose addresses are in range (R63, R160). -/
def byteAddr (s : State) (k : Nat) : Nat := (s.I.toNat + k) % 4096

/-- What an instruction may change: a row of the reach table (R37). -/
structure Footprint where
  /-- Registers written, the flag register included. -/
  regs : List Reg := []
  /-- May it write I. -/
  idx : Bool := false
  /-- May it write `pc`, beyond the fetch advance. -/
  pc : Bool := false
  /-- May it push or pop. -/
  stack : Bool := false
  /-- May it write DT. -/
  dt : Bool := false
  /-- May it write ST. -/
  st : Bool := false
  /-- May it change pixels. -/
  fb : Bool := false
  /-- Addresses of the bytes it stores to. -/
  stores : List Nat := []
  /-- May it raise a fatal error. -/
  halts : Bool := false
  /-- Does it take a random byte. -/
  draws : Bool := false
deriving DecidableEq, Repr

/-- The addresses an instruction stores to: those its meaning forms, none if forming one fails (R66). -/
def storedAddrs (s : State) (n : Nat) : List Nat :=
  match formAddrs s.cfg.addrPolicy (span s.I.toNat n) with
  | .ok as => as
  | .error _ => []

/-- The registers V0..Vx (R165). -/
def regRange (x : Reg) : List Reg := (List.finRange 16).filter (fun r => r ≤ x)

/-- The reach table (R37), "w" columns: what each instruction may write. -/
def footprint (i : Instr) (s : State) : Footprint :=
  match i with
  | .cls => { fb := true }
  | .ret => { pc := true, stack := true, halts := true }
  | .jp _ => { pc := true }
  | .call _ => { pc := true, stack := true, halts := true }
  | .seByte _ _ | .seReg _ _ | .sneByte _ _ | .sneReg _ _ | .skp _ | .sknp _ => { pc := true }
  | .ldByte x _ | .ldReg x _ | .addByte x _ | .orReg x _ | .andReg x _ | .xorReg x _ | .ldVxDt x =>
    { regs := [x] }
  | .addReg x _ | .subReg x _ | .subnReg x _ | .shr x _ | .shl x _ => { regs := [x, VF] }
  | .ldI _ | .addI _ | .ldF _ => { idx := true }
  | .jpV0 _ => { pc := true, halts := true }
  | .rnd x _ => { regs := [x], draws := true }
  | .drw _ _ _ => { regs := [VF], fb := true, halts := true }
  | .ldDtVx _ => { dt := true }
  | .ldStVx _ => { st := true }
  | .ldVxK x => { regs := [x], pc := true }
  | .ldB _ => { stores := storedAddrs s 3, halts := true }
  | .storeRegs x =>
    { idx := s.cfg.memoryIncrementQuirk, stores := storedAddrs s (x.val + 1), halts := true }
  | .loadRegs x => { regs := regRange x, idx := s.cfg.memoryIncrementQuirk, halts := true }

/-- `t` differs from `s` only inside the footprint `f`; key flags and configuration are in none. -/
def Framed (f : Footprint) (s t : State) : Prop :=
  (∀ r, r ∉ f.regs → t.getV r = s.getV r) ∧
  (f.idx = false → t.I = s.I) ∧ (f.pc = false → t.pc = s.pc) ∧ (f.stack = false → t.stack = s.stack) ∧
  (f.dt = false → t.DT = s.DT) ∧ (f.st = false → t.ST = s.ST) ∧ (f.fb = false → t.FB = s.FB) ∧
  (∀ a, a ∉ f.stores → t.readByte a = s.readByte a) ∧
  (f.halts = false → t.halted = s.halted) ∧ (f.draws = false → t.draws = s.draws) ∧
  t.KEY = s.KEY ∧ t.cfg = s.cfg

/-- The sprite bit of row `r`, column `c`: bit `7 - c` of the row's byte (R170). -/
def spriteBit (rows : List Byte) (r c : Nat) : Bool := (rows.getD r 0).getLsbD (7 - c)

/-- The wrapped image of a sprite drawn at `(x0, y0)`: the pixels some set sprite bit lands on (R172, R173). -/
def spriteImage (rows : List Byte) (x0 y0 : Nat) (px : Fin 64) (py : Fin 32) : Prop :=
  ∃ r c, r < rows.length ∧ c < 8 ∧ spriteBit rows r c = true ∧
    px.val = (x0 + c) % 64 ∧ py.val = (y0 + r) % 32

/-- The rows a DRW reads when its addresses are in range: `MEM[Addr(I + r)]` for r below n (R66, R172). -/
def spriteRows (s : State) (n : Nat) : List Byte := (List.range n).map (fun r => s.readByte (byteAddr s r))

/-- The WRAP machine's view of a state of a FAULT machine: program-counter values reduced modulo 4096. -/
def State.wrapView (s : State) : State :=
  { s with
    pc := BitVec.ofNat 16 (s.pc.toNat % 4096)
    stack := s.stack.map (fun e => BitVec.ofNat 16 (e.toNat % 4096))
    cfg := { s.cfg with addrPolicy := .wrap } }

end Sys2Proof.Machine
end

