-- ==== Sys2Proof/Certificates/Slice0/Obligations.lean ====
section
/-! DEFINITION. The statements for the provers, from the numbered rules of spec/. -/

open Sys2Proof Sys2Proof.Machine

/-! ### Encoding -/

/-- R91 to R96: every well-formed instruction is decoded from its own word, with every operand. The opcode
values are the spec's decision D2 (log entry 15). -/
def Obligations.DecodingAnEncodedInstructionGivesItBack : Prop :=
  ∀ i : Instr, i.wellFormed = true → decode (encode i) = .ok i

/-- R94, R96: a word that decodes is the encoding of the instruction it decodes to, which is well formed, so
no two words mean the same instruction. The opcode values are the spec's decision D2 (log entry 15). -/
def Obligations.ADecodedWordIsTheEncodingOfItsInstruction : Prop :=
  ∀ (w : Word) (i : Instr), decode w = .ok i → encode i = w ∧ i.wellFormed = true

/-- R96: "A word `w` is instruction row `r` exactly when `w AND mask(r) = match(r)`; no word matches two
rows." The rows are the spec's decision D2 (log entry 15). -/
def Obligations.DecodingFollowsMatchAndMask : Prop :=
  ∀ (w : Word) (k : Fin 34),
    (∃ row, opcodeRows[k.val]? = some row ∧ w &&& row.2 = row.1) ↔
    (∃ i, decode w = .ok i ∧ i.row = k.val)

/-- R106: the illegal words, family by family, and no others; matching is strict, the spec's decision D3
(log entry 15). -/
def Obligations.IllegalWordsAreThoseOfTheSixFamilies : Prop :=
  ∀ w : Word, decode w = .error (.illegalWord w) ↔
    (fieldOp w = 0x0 ∧ w ≠ 0x00E0 ∧ w ≠ 0x00EE) ∨
    (fieldOp w = 0x5 ∧ fieldN w ≠ 0) ∨
    (fieldOp w = 0x8 ∧ fieldN w ∈ [0x8, 0x9, 0xA, 0xB, 0xC, 0xD, 0xF]) ∨
    (fieldOp w = 0x9 ∧ fieldN w ≠ 0) ∨
    (fieldOp w = 0xE ∧ fieldKK w ≠ 0x9E ∧ fieldKK w ≠ 0xA1) ∨
    (fieldOp w = 0xF ∧ fieldKK w ∉ [0x07, 0x0A, 0x15, 0x18, 0x1E, 0x29, 0x33, 0x55, 0x65])

/-- R98: the four anchors. (1) `6A02`, (2) `7A05`, (3) `Fx55` for every x, (4) `BXNN` with its top operand
nibble X. -/
def Obligations.TheFourAnchorsDecode : Prop :=
  decode 0x6A02 = .ok (.ldByte 0xA 0x02) ∧ decode 0x7A05 = .ok (.addByte 0xA 0x05) ∧
  (∀ x : Reg, decode (BitVec.ofNat 16 (0xF055 + x.val * 256)) = .ok (.storeRegs x)) ∧
  (∀ (x : Reg) (nn : Byte), ∃ nnn, decode (BitVec.ofNat 16 (0xB000 + x.val * 256 + nn.toNat)) = .ok (.jpV0 nnn) ∧
    topNibble nnn = x ∧ nnn.toNat = x.val * 256 + nn.toNat)

/-- Part 4 of 95_test_vectors.md: one word of each family decodes as listed (opcode values: D2, log entry
15). -/
def Obligations.ListedWordsDecode : Prop :=
  decode 0x00E0 = .ok .cls ∧ decode 0x00EE = .ok .ret ∧ decode 0x2ABC = .ok (.call 0xABC) ∧
  decode 0x8AB7 = .ok (.subnReg 0xA 0xB) ∧ decode 0xCA7F = .ok (.rnd 0xA 0x7F) ∧
  decode 0xDAB5 = .ok (.drw 0xA 0xB 5) ∧ decode 0xEAA1 = .ok (.sknp 0xA) ∧ decode 0xFA33 = .ok (.ldB 0xA) ∧
  decode 0x5AB1 = .error (.illegalWord 0x5AB1)

/-! ### The step -/

/-- R120, R123: in a running state whose two fetched bytes, high byte first, decode to an instruction, the
step is that instruction executed in the state whose `pc` is advanced by 2, and that instruction is well
formed. -/
def Obligations.StepRunsTheDecodedInstruction : Prop :=
  ∀ (s : State) (i : Instr) (rest : List Byte),
    s.halted = none → (s.cfg.addrPolicy = .wrap ∨ s.pc.toNat ≤ 0xFFE) →
    decodeBytes [s.readByte (s.pc.toNat % 4096), s.readByte ((s.pc.toNat + 1) % 4096)] = .ok (i, rest) →
    i.wellFormed = true ∧
    step s = exec i { s with pc := pcValue s.cfg.addrPolicy (s.pc.toNat + 2) }

/-- R67: "read two consecutive bytes from Memory (big-endian order: the byte at PC is the high byte) to form a
16-bit instruction word"; `word = MEM[Addr(pc)] × 256 + MEM[Addr(pc + 1)]`. Where an address is out of range
there is no word (R121). -/
def Obligations.FetchIsBigEndian : Prop :=
  ∀ s : State,
    (∀ a0 a1, formAddr s.cfg.addrPolicy s.pc.toNat = .ok a0 → formAddr s.cfg.addrPolicy (s.pc.toNat + 1) = .ok a1 →
      ∃ w, s.fetch = .ok w ∧ w.toNat = (s.readByte a0).toNat * 256 + (s.readByte a1).toNat) ∧
    (∀ w, s.fetch = .ok w → w.toNat =
      (s.readByte (s.pc.toNat % 4096)).toNat * 256 + (s.readByte ((s.pc.toNat + 1) % 4096)).toNat)

/-- R122, R201: a fetched illegal word changes `pc` by 2 and nothing else, is reported with its address, and
leaves the machine steppable. That the report carries the word and its address is the spec's decision D17, which R201
takes over through R208 (log entry 4). -/
def Obligations.IllegalWordIsReportedAndSkipped : Prop :=
  ∀ (s : State) (w : Word) (e : DecodeError), s.halted = none → s.fetch = .ok w → decode w = .error e →
    step s = .next { s with pc := pcValue s.cfg.addrPolicy (s.pc.toNat + 2) } ∧
    stepReport s = .decodeFailure w s.pc

/-- R124: a step in the halted state changes nothing and reports the recorded cause. The no-change reading is
the spec's decision D13. -/
def Obligations.StepWhileHaltedChangesNothing : Prop :=
  ∀ (s : State) (c : FatalCause), s.halted = some c → step s = .next s ∧ stepReport s = .halted c

/-- R121, R204 under FAULT: a fetch at `ia > 0xFFE` halts with AddressRange(ia) before the advance. The FAULT
policy is the spec's decision D4, that `pc` stays D27 (log entry 15); the reported address is log entry 7. -/
def Obligations.FetchBeyondMemoryHaltsUnderFault : Prop :=
  ∀ s : State, s.halted = none → s.cfg.addrPolicy = .fault → 0xFFE < s.pc.toNat →
    step s = .next { s with halted := some .addressRange } ∧
    stepReport s = .fatal .addressRange (some s.pc.toNat)

/-- Every instruction and every step answers a next state; no fault and no refusal ends a run. That the errors of
R200 are next states and no Fault of the host interface is raised is the model's choice (DESIGN CHOICE, log entry 4);
the spec gives each of them its effect (R201 to R204, R206, R124). -/
def Obligations.EveryInstructionAndStepAnswersANextState : Prop :=
  (∀ (i : Instr) (s : State), ∃ t, exec i s = .next t) ∧ (∀ s : State, ∃ t, step s = .next t)

/-- R126: "The invariants it preserves in every reachable state are: `I < 4096` …; `0 ≤ sp ≤ 16` …; under
`WRAP`, `pc < 4096`", with the canonical form of memory and the ranges of `pc` and the stack entries. -/
def Obligations.StepKeepsTheInvariant : Prop :=
  ∀ s t : State, s.Inv → step s = .next t → t.Inv

/-- R36: the creation state of every configuration meets the invariant; State.reset is one of them. -/
def Obligations.CreationMeetsTheInvariant : Prop :=
  State.reset.Inv ∧ ∀ c : Config, (State.create c).Inv

/-- R214: every external event keeps the invariant. -/
def Obligations.EveryEventKeepsTheInvariant : Prop :=
  ∀ (e : Event) (s : State), s.Inv → (e.apply s).Inv

/-- R126, R258: after any steps and events in any order, from creation with any configuration, the invariant
holds and the configuration is the one given. -/
def Obligations.EveryReachableStateMeetsTheInvariant : Prop :=
  ∀ (c : Config) (events : List Event),
    (runEvents events (State.create c)).Inv ∧ (runEvents events (State.create c)).cfg = c

/-- R126: a step never changes a key flag or the configuration, and changes a timer only when the instruction
it runs is the one that sets that timer. -/
def Obligations.StepLeavesKeysConfigurationAndTimers : Prop :=
  ∀ s t : State, step s = .next t →
    t.KEY = s.KEY ∧ t.cfg = s.cfg ∧
    (t.DT ≠ s.DT → ∃ w x, s.fetch = .ok w ∧ decode w = .ok (.ldDtVx x) ∧ t.DT = s.getV x) ∧
    (t.ST ≠ s.ST → ∃ w x, s.fetch = .ok w ∧ decode w = .ok (.ldStVx x) ∧ t.ST = s.getV x)

/-- R30: "The instructions that write memory are `LD [I], Vx` (Fx55) and `LD B, Vx` (Fx33)"; R31: pixels
change only by CLS and DRW. -/
def Obligations.OnlyStoresWriteMemoryAndOnlyDrawsWritePixels : Prop :=
  ∀ s t : State, step s = .next t →
    ((∃ a, t.readByte a ≠ s.readByte a) →
      ∃ w x, s.fetch = .ok w ∧ (decode w = .ok (.storeRegs x) ∨ decode w = .ok (.ldB x))) ∧
    (t.FB ≠ s.FB →
      ∃ w, s.fetch = .ok w ∧ (decode w = .ok .cls ∨ ∃ x y n, decode w = .ok (.drw x y n)))

/-- R64 as R65 and R132 allow it (log entry 13): where a FAULT machine's step raises no AddressRange, the WRAP
machine's step from the state's WRAP view gives the WRAP view of the result. The two machines hold equal draw
counters, so RND gives both one byte; that is the unsafe side of log entry 2, and the statement says nothing of
machines that draw different bytes. The policies are the spec's decisions D4 and D5 (log entry 15). -/
def Obligations.WrapMachineFollowsFaultMachine : Prop :=
  ∀ s t : State, s.cfg.addrPolicy = .fault → step s = .next t → t.halted ≠ some .addressRange →
    step s.wrapView = .next t.wrapView

/-- R204: under WRAP the kind AddressRange is never raised. WRAP is the spec's decision D4. -/
def Obligations.WrapNeverRaisesAddressRange : Prop :=
  ∀ s t : State, s.cfg.addrPolicy = .wrap → s.halted ≠ some .addressRange → step s = .next t →
    t.halted ≠ some .addressRange

/-- R200, R202 to R204: a running machine halts exactly for these reasons: RET with an empty stack, CALL with
a full one, and under FAULT a fetch or an instruction that forms an address above 0xFFF. The capacity 16 is the
spec's decision D6, the FAULT policy D4 (log entry 15). -/
def Obligations.AStepHaltsOnlyForItsFatalErrors : Prop :=
  ∀ (s t : State) (c : FatalCause), s.halted = none → step s = .next t → t.halted = some c →
    (c = .stackUnderflow ∧ s.fetch = .ok (encode .ret) ∧ s.stack = []) ∨
    (c = .stackOverflow ∧ 16 ≤ s.sp ∧ ∃ nnn, s.fetch = .ok (encode (.call nnn))) ∨
    (c = .addressRange ∧ s.cfg.addrPolicy = .fault ∧
      (0xFFE < s.pc.toNat ∨
        ∃ w i, s.fetch = .ok w ∧ decode w = .ok i ∧ ∃ a ∈ formedAddrs i s.advance, 0xFFF < a))

/-- R123, R206: a step that raises a fatal error sets `halted`, leaves `pc` at `ia + 2` (at `ia` for a fetch
fault) and changes nothing else. The value of `pc` is the spec's decision D27, that nothing is written D25 (log
entry 15). -/
def Obligations.FatalErrorsArePrecise : Prop :=
  ∀ (s t : State) (c : FatalCause), s.halted = none → step s = .next t → t.halted = some c →
    ((∃ w, s.fetch = .ok w) →
      t = { s with pc := pcValue s.cfg.addrPolicy (s.pc.toNat + 2), halted := some c }) ∧
    ((∃ a, s.fetch = .error a) → t = { s with halted := some .addressRange } ∧ c = .addressRange)

/-- R12, R208: what a step reports agrees with what it does. The contents of a report are the spec's decision
D17; which address is reported is log entry 7. -/
def Obligations.ReportAgreesWithTheStep : Prop :=
  ∀ s t : State, step s = .next t →
    match stepReport s with
    | .ok => s.halted = none ∧ t.halted = none
    | .decodeFailure w ia => s.halted = none ∧ t.halted = none ∧ s.fetch = .ok w ∧ ia = s.pc ∧
        decode w = .error (.illegalWord w)
    | .fatal c none => s.halted = none ∧ t.halted = some c ∧ c ≠ .addressRange
    | .fatal c (some a) => s.halted = none ∧ t.halted = some c ∧ c = .addressRange ∧
        (0xFFF < a ∨ a = s.pc.toNat)
    | .halted c => s.halted = some c ∧ t = s

/-! ### Frames -/

/-- R37, the reach table: each of the 34 instructions, wherever it answers a next state, changes only the
registers, I, `pc`, stack, timers, pixels and memory bytes of its row of `footprint`; key flags and
configuration are never changed. The stored addresses are those its meaning forms from I. -/
def Obligations.EveryInstructionStaysInItsFootprint : Prop :=
  ∀ (i : Instr) (s t : State), exec i s = .next t → Framed (footprint i s) s t

/-- R20, R33, R34: the random draw is no state of the machine. Whatever the draw counter holds (log entry 2), an
instruction leaves the machine the same, but for the byte that RND writes to its register; the configuration is left
the same too (log entry 1). -/
def Obligations.TheDrawCounterShowsOnlyInTheByteOfRND : Prop :=
  ∀ (i : Instr) (s t : State) (n : Nat), exec i s = .next t →
    ∃ u, exec i { s with draws := n } = .next u ∧ u.cfg = t.cfg ∧
      (u.toCoreState = t.toCoreState ∨
        ∃ x kk, i = .rnd x kk ∧ u.toCoreState = { t.toCoreState with V := t.V.set x (u.getV x) })

/-! ### Control flow -/

/-- R131: `JP addr`: "Set program counter to addr." -/
def Obligations.JumpSetsTheProgramCounter : Prop :=
  ∀ (nnn : Addr12) (s : State), exec (.jp nnn) s = .next { s with pc := nnn.setWidth 16 }

/-- R132: `CALL addr`: "Push current program counter onto the call stack (stack-overflow is a fatal error);
set program counter to addr." At 16 entries nothing is pushed, the machine halts and Fatal(StackOverflow) is
reported. The capacity 16 is the spec's decision D6, that `pc` stays advanced D27, what is reported D17 (log entries 4
and 15). -/
def Obligations.CallPushesThePcOrOverflows : Prop :=
  ∀ (nnn : Addr12) (s : State),
    (s.sp < 16 → exec (.call nnn) s = .next { s with stack := s.pc :: s.stack, pc := nnn.setWidth 16 }) ∧
    (16 ≤ s.sp → exec (.call nnn) s = .next { s with halted := some .stackOverflow } ∧
      execReport (.call nnn) s = .fatal .stackOverflow none)

/-- R130: `RET`: "Pop one address from the call stack into the program counter; stack-underflow is a fatal
error." On an empty stack the machine halts and Fatal(StackUnderflow) is reported. That
`pc` stays advanced is the spec's decision D27, what is reported D17, the stored `pc` D5 (log entries 4 and 15). -/
def Obligations.ReturnPopsThePcOrUnderflows : Prop :=
  ∀ s : State,
    (∀ v rest, s.stack = v :: rest →
      exec .ret s = .next { s with stack := rest, pc := pcValue s.cfg.addrPolicy v.toNat }) ∧
    (s.stack = [] → exec .ret s = .next { s with halted := some .stackUnderflow } ∧
      execReport .ret s = .fatal .stackUnderflow none)

/-- R132: "CALL addr then RET restores the program counter to the instruction immediately after the CALL", by
two steps, and everything else with it. The capacity 16 is the spec's decision D6, the stored `pc` D5 (log entry
15). -/
def Obligations.CallThenReturnComesBack : Prop :=
  ∀ (s t : State) (nnn : Addr12), s.halted = none → s.sp < 16 → s.fetch = .ok (encode (.call nnn)) →
    step s = .next t → t.fetch = .ok (encode .ret) →
    step t = .next { s with pc := pcValue s.cfg.addrPolicy (s.pc.toNat + 2) }

/-- R133 to R136: each of the four SE and SNE forms adds 2 to the advanced `pc` exactly when its condition
holds, and changes nothing otherwise. -/
def Obligations.ConditionalSkipsSkipExactlyOnTheirCondition : Prop :=
  ∀ (x y : Reg) (kk : Byte) (s : State),
    (exec (.seByte x kk) s =
      .next (if s.getV x = kk then { s with pc := pcValue s.cfg.addrPolicy (s.pc.toNat + 2) } else s)) ∧
    (exec (.seReg x y) s =
      .next (if s.getV x = s.getV y then { s with pc := pcValue s.cfg.addrPolicy (s.pc.toNat + 2) } else s)) ∧
    (exec (.sneByte x kk) s =
      .next (if s.getV x ≠ kk then { s with pc := pcValue s.cfg.addrPolicy (s.pc.toNat + 2) } else s)) ∧
    (exec (.sneReg x y) s =
      .next (if s.getV x ≠ s.getV y then { s with pc := pcValue s.cfg.addrPolicy (s.pc.toNat + 2) } else s))

/-- R137: `JP V0, addr` with the quirk off and on, under both policies. The quirk's reading is the spec's
decision D16, the policies D4, what the halting form leaves D25 and D27 (log entry 15). -/
def Obligations.JumpWithOffsetAddsTheRegister : Prop :=
  ∀ (nnn : Addr12) (s : State) (r : Byte),
    r = (if s.cfg.jumpQuirk then s.getV (Fin.ofNat 16 (nnn.toNat / 256)) else s.getV 0) →
    exec (.jpV0 nnn) s =
      .next (if s.cfg.addrPolicy = .fault ∧ 0xFFF < nnn.toNat + r.toNat then { s with halted := some .addressRange }
        else { s with pc := BitVec.ofNat 16 ((nnn.toNat + r.toNat) % 4096) })

/-! ### Registers and arithmetic -/

/-- R141, R142: `LD Vx, byte` and `LD Vx, Vy`. -/
def Obligations.LoadsSetTheRegister : Prop :=
  ∀ (x y : Reg) (kk : Byte) (s : State),
    exec (.ldByte x kk) s = .next { s with V := s.V.set x kk } ∧
    exec (.ldReg x y) s = .next { s with V := s.V.set x (s.getV y) }

/-- R143: "Vx := (Vx + byte) mod 256 (no flag change)." -/
def Obligations.AddImmediateWrapsWithoutFlag : Prop :=
  ∀ (x : Reg) (kk : Byte) (s : State), ∃ t, exec (.addByte x kk) s = .next t ∧
    (t.getV x).toNat = ((s.getV x).toNat + kk.toNat) % 256 ∧ (x ≠ VF → t.getV VF = s.getV VF) ∧
    t = { s with V := s.V.set x (t.getV x) }

/-- R144: "sum := Vx + Vy; Vx := sum mod 256; **then** VF := 1 if sum > 255 else 0." -/
def Obligations.AddRegistersSetsCarryLast : Prop :=
  ∀ (x y : Reg) (s : State), ∃ t, exec (.addReg x y) s = .next t ∧
    (x ≠ VF → (t.getV x).toNat = ((s.getV x).toNat + (s.getV y).toNat) % 256) ∧
    t.getV VF = (if (s.getV x).toNat + (s.getV y).toNat > 255 then 1 else 0) ∧
    t = { s with V := (s.V.set x (t.getV x)).set VF (t.getV VF) }

/-- R145, R146, R147: the bitwise instructions, no flag change. -/
def Obligations.LogicInstructionsAreBitwise : Prop :=
  ∀ (x y : Reg) (s : State),
    exec (.orReg x y) s = .next { s with V := s.V.set x (s.getV x ||| s.getV y) } ∧
    exec (.andReg x y) s = .next { s with V := s.V.set x (s.getV x &&& s.getV y) } ∧
    exec (.xorReg x y) s = .next { s with V := s.V.set x (s.getV x ^^^ s.getV y) }

/-- R148, R150: SUB and SUBN write the difference modulo 256 and then VF, 1 exactly when the minuend is at
least the subtrahend. -/
def Obligations.SubtractionsSetNoBorrowLast : Prop :=
  ∀ (x y : Reg) (s : State),
    exec (.subReg x y) s = .next { s with
      V := (s.V.set x (s.getV x - s.getV y)).set VF (if s.getV x ≥ s.getV y then 1 else 0) } ∧
    exec (.subnReg x y) s = .next { s with
      V := (s.V.set x (s.getV y - s.getV x)).set VF (if s.getV y ≥ s.getV x then 1 else 0) }

/-- R149, R151: SHR and SHL shift Vx, or Vy with the shift quirk, by one place into Vx and then write the bit
shifted out to VF. The quirk's reading is the spec's decision D15. -/
def Obligations.ShiftsWriteTheBitShiftedOutLast : Prop :=
  ∀ (x y : Reg) (s : State) (v : Byte), v = (if s.cfg.shiftQuirk then s.getV y else s.getV x) →
    exec (.shr x y) s = .next { s with
      V := (s.V.set x (v >>> 1)).set VF (if v.getLsbD 0 then 1 else 0) } ∧
    exec (.shl x y) s = .next { s with
      V := (s.V.set x (v <<< 1)).set VF (if v.getLsbD 7 then 1 else 0) }

/-- R152: RND writes some byte masked with kk and nothing else of the machine; the byte is a free value (log
entry 2), so only what holds for every byte is claimed. -/
def Obligations.RandomByteIsMasked : Prop :=
  ∀ (x : Reg) (kk : Byte) (s : State), ∃ (t : State) (b : Byte), exec (.rnd x kk) s = .next t ∧
    t.getV x = b &&& kk ∧ (∀ k, kk.getLsbD k = false → (t.getV x).getLsbD k = false) ∧
    t = { s with V := s.V.set x (t.getV x), draws := s.draws + 1 }

/-- R22: the six flag-writing instructions "always write VF, with 0 or 1, whatever the operands". The one exception
is a DRW whose row addresses are out of range, only under FAULT: it halts instead and changes nothing else (R172,
R204). The FAULT policy is the spec's decision D4, what the halting form leaves D25 and D27 (log entry 15). -/
def Obligations.FlagWritersLeaveZeroOrOneInVF : Prop :=
  ∀ (i : Instr) (s t : State), i.writesFlag = true → exec i s = .next t →
    (t.getV VF = 0 ∨ t.getV VF = 1) ∨
    ∃ x y n, i = .drw x y n ∧ ¬ AccessFits s n ∧ t = { s with halted := some .addressRange }

/-! ### Index register and memory -/

/-- R161, R162: `LD I, addr`; `ADD I, Vx` reduces modulo 4096 under both address policies and writes no
flag. -/
def Obligations.IndexLoadAndAdd : Prop :=
  ∀ (nnn : Addr12) (x : Reg) (s : State),
    exec (.ldI nnn) s = .next { s with I := nnn.setWidth 16 } ∧
    ∃ t, exec (.addI x) s = .next t ∧ t.I.toNat = (s.I.toNat + (s.getV x).toNat) % 4096 ∧
      t = { s with I := t.I }

/-- R163: `LD F, Vx` gives the address of the glyph for the low 4 bits of Vx, 0x050 to 0x09B. FONT_BASE is the
spec's decision D7. -/
def Obligations.FontLoadPointsAtTheGlyph : Prop :=
  ∀ (x : Reg) (s : State), ∃ t, exec (.ldF x) s = .next t ∧
    t.I.toNat = 0x050 + 5 * (s.getV x &&& 0x0F).toNat ∧ t = { s with I := t.I }

/-- R164: `LD [I], Vx` stores V0..Vx (inclusive) at I upward and, with the increment quirk, moves I by the
number of bytes; where an address is out of range under FAULT it writes nothing and halts. The increment
amount is the spec's decision D14, the policies D4, what the halting form leaves D25 and D27 (log entry 15). -/
def Obligations.StoreRegistersWritesV0ToVx : Prop :=
  ∀ (x : Reg) (s : State),
    (AccessFits s (x.val + 1) → ∃ t, exec (.storeRegs x) s = .next t ∧
      (∀ r : Reg, r ≤ x → t.readByte (byteAddr s r.val) = s.getV r) ∧
      (∀ a, (∀ k ≤ x.val, a ≠ byteAddr s k) → t.readByte a = s.readByte a) ∧
      t = { s with
        MEM := t.MEM
        I := if s.cfg.memoryIncrementQuirk then BitVec.ofNat 16 ((s.I.toNat + x.val + 1) % 4096) else s.I }) ∧
    (¬ AccessFits s (x.val + 1) → exec (.storeRegs x) s = .next { s with halted := some .addressRange })

/-- R165: `LD Vx, [I]` loads V0..Vx (inclusive) from I upward, with the increment as for R164; where an
address is out of range under FAULT it writes no register and halts. The increment amount is the spec's
decision D14, the policies D4, what the halting form leaves D25 and D27 (log entry 15). -/
def Obligations.LoadRegistersReadsV0ToVx : Prop :=
  ∀ (x : Reg) (s : State),
    (AccessFits s (x.val + 1) → ∃ t, exec (.loadRegs x) s = .next t ∧
      (∀ r : Reg, r ≤ x → t.getV r = s.readByte (byteAddr s r.val)) ∧
      (∀ r : Reg, x < r → t.getV r = s.getV r) ∧
      t = { s with
        V := t.V
        I := if s.cfg.memoryIncrementQuirk then BitVec.ofNat 16 ((s.I.toNat + x.val + 1) % 4096) else s.I }) ∧
    (¬ AccessFits s (x.val + 1) → exec (.loadRegs x) s = .next { s with halted := some .addressRange })

/-- R166: "Write the 3 decimal digits of Vx (hundreds, tens, ones) to Memory at I, I+1, I+2"; where an address
is out of range under FAULT it writes nothing and halts. The policies are the spec's decision D4, what the halting form
leaves D25 and D27 (log entry 15). -/
def Obligations.DecimalDigitsAreStored : Prop :=
  ∀ (x : Reg) (s : State),
    (AccessFits s 3 → ∃ t, exec (.ldB x) s = .next t ∧
      (t.readByte (byteAddr s 0)).toNat = (s.getV x).toNat / 100 ∧
      (t.readByte (byteAddr s 1)).toNat = (s.getV x).toNat / 10 % 10 ∧
      (t.readByte (byteAddr s 2)).toNat = (s.getV x).toNat % 10 ∧
      (∀ a, (∀ k < 3, a ≠ byteAddr s k) → t.readByte a = s.readByte a) ∧
      t = { s with MEM := t.MEM }) ∧
    (¬ AccessFits s 3 → exec (.ldB x) s = .next { s with halted := some .addressRange })

/-- R164 and R165 together: with the increment quirk off, registers stored and loaded back from the same I hold
their stored values, whatever the registers held in between. -/
def Obligations.StoredRegistersLoadBack : Prop :=
  ∀ (x : Reg) (s t u v : State), s.cfg.memoryIncrementQuirk = false → AccessFits s (x.val + 1) →
    exec (.storeRegs x) s = .next t → u = { t with V := u.V } → exec (.loadRegs x) u = .next v →
    ∀ r : Reg, r ≤ x → v.getV r = s.getV r

/-- R75: a byte stored by `LD [I], Vx` or `LD B, Vx` is the byte the next fetch reads, if `pc` (or `pc + 1`) points at
it, as the high (or the low) byte of the word; under both policies, where the fetch itself is in range. Coherence
without delay is the spec's decision D24, the policies D4. -/
def Obligations.AStoredWordIsFetchedNext : Prop :=
  ∀ (x : Reg) (s t : State), (t.cfg.addrPolicy = .wrap ∨ t.pc.toNat ≤ 0xFFE) →
    (AccessFits s (x.val + 1) → exec (.storeRegs x) s = .next t →
      ∃ w, t.fetch = .ok w ∧ ∀ r : Reg, r ≤ x →
        (t.pc.toNat % 4096 = byteAddr s r.val → w.toNat / 256 = (s.getV r).toNat) ∧
        ((t.pc.toNat + 1) % 4096 = byteAddr s r.val → w.toNat % 256 = (s.getV r).toNat)) ∧
    (AccessFits s 3 → exec (.ldB x) s = .next t →
      ∃ w, t.fetch = .ok w ∧ ∀ k < 3,
        (t.pc.toNat % 4096 = byteAddr s k → w.toNat / 256 = (s.getV x).toNat / 10 ^ (2 - k) % 10) ∧
        ((t.pc.toNat + 1) % 4096 = byteAddr s k → w.toNat % 256 = (s.getV x).toNat / 10 ^ (2 - k) % 10))

/-! ### Display -/

/-- R171: "Set every framebuffer pixel to 0." VF and everything else is untouched. -/
def Obligations.ClearScreenClearsEveryPixel : Prop :=
  ∀ s : State, ∃ t, exec .cls s = .next t ∧ (∀ x y, t.FB.pixel x y = false) ∧ t = { s with FB := t.FB }

/-- R172, R173: the framebuffer after a DRW is the one before, exclusive-ored with the sprite's wrapped image;
VF is 1 exactly when some pixel went from set to unset, else 0; nothing else changes. Where a row's address is
out of range under FAULT nothing is drawn and the machine halts. The bit order of a row is the spec's decision
D8, the policies D4, what the halting form leaves D25 and D27 (log entry 15). -/
def Obligations.DrawXorsTheWrappedImage : Prop :=
  ∀ (x y : Reg) (n : Nat) (s : State), n ≤ 15 →
    (AccessFits s n → ∃ t, exec (.drw x y n) s = .next t ∧
      (∀ px py, spriteImage (spriteRows s n) (s.getV x).toNat (s.getV y).toNat px py →
        t.FB.pixel px py = !s.FB.pixel px py) ∧
      (∀ px py, ¬ spriteImage (spriteRows s n) (s.getV x).toNat (s.getV y).toNat px py →
        t.FB.pixel px py = s.FB.pixel px py) ∧
      ((∃ px py, s.FB.pixel px py = true ∧ t.FB.pixel px py = false) → t.getV VF = 1) ∧
      ((∀ px py, s.FB.pixel px py = true → t.FB.pixel px py = true) → t.getV VF = 0) ∧
      t = { s with FB := t.FB, V := s.V.set VF (t.getV VF) }) ∧
    (¬ AccessFits s n → exec (.drw x y n) s = .next { s with halted := some .addressRange })

/-- R172 (g): "drawing the same sprite twice at the same place restores the framebuffer", and the second draw
reports a collision exactly when a sprite bit landed on a pixel the first draw set. -/
def Obligations.DrawingTwiceRestoresTheFramebuffer : Prop :=
  ∀ (x y : Reg) (n : Nat) (s t u : State), n ≤ 15 → x ≠ VF → y ≠ VF → AccessFits s n →
    exec (.drw x y n) s = .next t → exec (.drw x y n) t = .next u →
    u.FB = s.FB ∧ (u.getV VF = 1 ↔ ∃ px py, s.FB.pixel px py = false ∧ t.FB.pixel px py = true)

/-! ### Keypad and timers -/

/-- R181, R182: SKP skips exactly when the key of Vx's low 4 bits is pressed, SKNP exactly when it is not. -/
def Obligations.KeySkipsTestTheSelectedKey : Prop :=
  ∀ (x : Reg) (s : State) (k : Key), k.val = (s.getV x &&& 0x0F).toNat →
    exec (.skp x) s =
      .next (if s.KEY[k] = true then { s with pc := pcValue s.cfg.addrPolicy (s.pc.toNat + 2) } else s) ∧
    exec (.sknp x) s =
      .next (if s.KEY[k] = false then { s with pc := pcValue s.cfg.addrPolicy (s.pc.toNat + 2) } else s)

/-- R184, a key is down: Vx gets the least pressed key's index and the instruction is consumed. Level and
least index are the spec's decision D12 (log entry 14). -/
def Obligations.KeyWaitTakesTheLeastPressedKey : Prop :=
  ∀ (x : Reg) (s : State) (k : Key), s.KEY[k] = true → (∀ j : Key, j < k → s.KEY[j] = false) →
    exec (.ldVxK x) s = .next { s with V := s.V.set x (BitVec.ofNat 8 k.val) }

/-- R184, no key is down: "A stalled step returns `Ok`, changes no state at all". `pc` is in range, as in every
reachable state. -/
def Obligations.KeyWaitStallChangesNothing : Prop :=
  ∀ (x : Reg) (s : State), s.halted = none → s.pc.toNat ≤ pcBound s.cfg.addrPolicy →
    s.fetch = .ok (encode (.ldVxK x)) → (∀ k : Key, s.KEY[k] = false) →
    step s = .next s ∧ stepReport s = .ok

/-- R183, R185, R186: the three timer moves. -/
def Obligations.TimerMovesCopyTheByte : Prop :=
  ∀ (x : Reg) (s : State),
    exec (.ldVxDt x) s = .next { s with V := s.V.set x s.DT } ∧
    exec (.ldDtVx x) s = .next { s with DT := s.getV x } ∧
    exec (.ldStVx x) s = .next { s with ST := s.getV x }

/-! ### Reset and events -/

/-- R36: the registers, timers, keys, stack, pixels and configuration after reset. These values are the spec's
decision D9 (log entry 5). -/
def Obligations.ResetLeavesEverythingZero : Prop :=
  (∀ r, State.reset.getV r = 0) ∧ State.reset.I = 0 ∧ State.reset.pc = 0x200 ∧ State.reset.stack = [] ∧
  State.reset.DT = 0 ∧ State.reset.ST = 0 ∧ (∀ k : Key, State.reset.KEY[k] = false) ∧
  (∀ x y, State.reset.FB.pixel x y = false) ∧ State.reset.halted = none ∧
  State.reset.cfg = ⟨false, false, false, .wrap⟩

/-- R36, R240, R243: after creation memory is zero except for the font, glyph `d` at `0x050 + 5 × d`. The font
bytes are the spec's decision D7. -/
def Obligations.CreationMemoryHoldsZerosAndTheFont : Prop :=
  ∀ c : Config,
    (∀ a, a < 0x050 ∨ (0x09F < a ∧ a < 4096) → (State.create c).readByte a = 0) ∧
    (∀ d r, d < 16 → r < 5 →
      ∃ rows b, glyphRows[d]? = some rows ∧ rows[r]? = some b ∧
        (State.create c).readByte (0x050 + 5 * d + r) = b)

/-- R241: reset puts every piece of the machine's state back to its creation value and keeps the configuration;
what reset preserves is the spec's decision D10. The draw counter is no state of the machine (log entry 2). -/
def Obligations.ResetEventGivesTheCreationState : Prop :=
  ∀ s : State, ∃ n, Event.reset.apply s = { State.create s.cfg with draws := n }

/-- R215: "each decrements its counter by 1 if currently nonzero; never below zero; no wraparound"; in every
state, halted and stalled included (the spec's decision D19), and nothing else changes. -/
def Obligations.TickCountsBothTimersDown : Prop :=
  ∀ s : State, ∃ t, Event.tick.apply s = t ∧
    (s.DT = 0 → t.DT = 0) ∧ (s.DT ≠ 0 → t.DT.toNat + 1 = s.DT.toNat) ∧
    (s.ST = 0 → t.ST = 0) ∧ (s.ST ≠ 0 → t.ST.toNat + 1 = s.ST.toNat) ∧
    t = { s with DT := t.DT, ST := t.ST }

/-- R216: setKey changes that one flag and nothing else; an index above 15 is refused and changes nothing (the
spec's decision D19). -/
def Obligations.SetKeyChangesOneFlag : Prop :=
  ∀ (k : Nat) (p : Bool) (s : State),
    (k < 16 → ∃ t, (Event.setKey k p).apply s = t ∧ (∀ j : Key, t.KEY[j] = if j.val = k then p else s.KEY[j]) ∧
      t = { s with KEY := t.KEY } ∧ (Event.setKey k p).report s = .done) ∧
    (16 ≤ k → (Event.setKey k p).apply s = s ∧ (Event.setKey k p).report s = .keyRefused)

/-- R246, R205: an image of at most 3584 bytes is copied verbatim to 0x200 upward and touches nothing else; a
longer one is refused, VM state unchanged. When a load may occur is the spec's decision D20. -/
def Obligations.LoadCopiesTheImageOrRefusesIt : Prop :=
  ∀ (bytes : List Byte) (s : State),
    (bytes.length ≤ 3584 → ∃ t, (Event.load bytes).apply s = t ∧
      (∀ k b, bytes[k]? = some b → t.readByte (0x200 + k) = b) ∧
      (∀ a, a < 0x200 ∨ 0x200 + bytes.length ≤ a → t.readByte a = s.readByte a) ∧
      t = { s with MEM := t.MEM } ∧ (Event.load bytes).report s = .done) ∧
    (3584 < bytes.length → (Event.load bytes).apply s = s ∧ (Event.load bytes).report s = .romOversize)
end

