-- ==== Sys2Proof/Laws/Decode.lean ====
section
/-! SUPPORT. The fields of the encoder's four word formats, and the bytes of a word. -/

namespace Sys2Proof

theorem toNat_formatA (op : Nat) (nnn : Addr12) (h : op < 16) :
    (formatA op nnn).toNat = op * 4096 + nnn.toNat := by
  have := nnn.isLt
  simp only [formatA, BitVec.toNat_ofNat]
  omega

theorem toNat_formatXK (op : Nat) (x : Reg) (kk : Byte) (h : op < 16) :
    (formatXK op x kk).toNat = op * 4096 + x.val * 256 + kk.toNat := by
  have := kk.isLt
  simp only [formatXK, BitVec.toNat_ofNat]
  omega

theorem toNat_formatXYN (op : Nat) (x y : Reg) (n : Nat) (h : op < 16) (hn : n < 16) :
    (formatXYN op x y n).toNat = op * 4096 + x.val * 256 + y.val * 16 + n := by
  simp only [formatXYN, BitVec.toNat_ofNat]
  omega

theorem toNat_formatX (op : Nat) (x : Reg) (k : Nat) (h : op < 16) (hk : k < 256) :
    (formatX op x k).toNat = op * 4096 + x.val * 256 + k := by
  simp only [formatX, BitVec.toNat_ofNat]
  omega

/-- Format A: the leading nibble and the address come back. -/
theorem fields_formatA (op : Nat) (nnn : Addr12) (h : op < 16) :
    fieldOp (formatA op nnn) = op ∧ fieldNNN (formatA op nnn) = nnn := by
  have := nnn.isLt
  refine ⟨?_, ?_⟩
  · simp only [fieldOp, toNat_formatA op nnn h]
    omega
  · apply BitVec.eq_of_toNat_eq
    simp only [fieldNNN, toNat_formatA op nnn h, BitVec.toNat_ofNat]
    omega

/-- Format XK: the leading nibble, the register and the immediate come back. -/
theorem fields_formatXK (op : Nat) (x : Reg) (kk : Byte) (h : op < 16) :
    fieldOp (formatXK op x kk) = op ∧ fieldX (formatXK op x kk) = x ∧ fieldKK (formatXK op x kk) = kk := by
  have := kk.isLt
  refine ⟨?_, ?_, ?_⟩
  · simp only [fieldOp, toNat_formatXK op x kk h]
    omega
  · apply Fin.ext
    simp only [fieldX, toNat_formatXK op x kk h, Fin.val_ofNat]
    omega
  · apply BitVec.eq_of_toNat_eq
    simp only [fieldKK, toNat_formatXK op x kk h, BitVec.toNat_ofNat]
    omega

/-- Formats XY and XYN: the leading nibble, both registers and the trailing nibble come back. -/
theorem fields_formatXYN (op : Nat) (x y : Reg) (n : Nat) (h : op < 16) (hn : n < 16) :
    fieldOp (formatXYN op x y n) = op ∧ fieldX (formatXYN op x y n) = x ∧ fieldY (formatXYN op x y n) = y ∧
      fieldN (formatXYN op x y n) = n := by
  refine ⟨?_, ?_, ?_, ?_⟩
  · simp only [fieldOp, toNat_formatXYN op x y n h hn]
    omega
  · apply Fin.ext
    simp only [fieldX, toNat_formatXYN op x y n h hn, Fin.val_ofNat]
    omega
  · apply Fin.ext
    simp only [fieldY, toNat_formatXYN op x y n h hn, Fin.val_ofNat]
    omega
  · simp only [fieldN, toNat_formatXYN op x y n h hn]
    omega

/-- Format X: the leading nibble, the register and the trailing byte come back. -/
theorem fields_formatX (op : Nat) (x : Reg) (k : Nat) (h : op < 16) (hk : k < 256) :
    fieldOp (formatX op x k) = op ∧ fieldX (formatX op x k) = x ∧ (formatX op x k).toNat % 256 = k := by
  refine ⟨?_, ?_, ?_⟩
  · simp only [fieldOp, toNat_formatX op x k h hk]
    omega
  · apply Fin.ext
    simp only [fieldX, toNat_formatX op x k h hk, Fin.val_ofNat]
    omega
  · rw [toNat_formatX op x k h hk]
    omega

/-- The word of two bytes, high byte first (R67). -/
theorem toNat_wordOfBytes (hi lo : Byte) : (wordOfBytes hi lo).toNat = hi.toNat * 256 + lo.toNat := by
  have := hi.isLt
  have := lo.isLt
  simp only [wordOfBytes, BitVec.toNat_ofNat]
  omega

/-- The two bytes of a word give the word back. -/
theorem wordOfBytes_bytesOfWord (w : Word) :
    wordOfBytes (BitVec.ofNat 8 (w.toNat / 256)) (BitVec.ofNat 8 w.toNat) = w := by
  have := w.isLt
  apply BitVec.eq_of_toNat_eq
  rw [toNat_wordOfBytes]
  simp only [BitVec.toNat_ofNat]
  omega

/-! ### Masks (R92, R96) in terms of fields -/

/-- Keeping the leading nibble and the bits of a low mask. -/
theorem toNat_highNibble_or (w : Word) (m : Nat) (low : Word) (hm : m ≤ 12) (h : low.toNat = w.toNat % 2 ^ m) :
    ((w >>> 12) <<< 12 ||| low).toNat = w.toNat / 4096 * 4096 + w.toNat % 2 ^ m := by
  have := w.isLt
  have hp : 2 ^ m ≤ 2 ^ 12 := Nat.pow_le_pow_right (by decide) hm
  have hl : w.toNat % 2 ^ m < 2 ^ 12 := Nat.lt_of_lt_of_le (Nat.mod_lt _ (Nat.two_pow_pos m)) hp
  have e : ((w >>> 12) <<< 12).toNat = (w.toNat / 4096) <<< 12 := by
    simp [Nat.shiftRight_eq_div_pow, Nat.shiftLeft_eq]
    omega
  rw [BitVec.toNat_or, h, e, ← Nat.shiftLeft_add_eq_or_of_lt hl, Nat.shiftLeft_eq]

/-- The mask of formats A, XK and XYN compares the leading nibble. -/
theorem mask_F000 (w : Word) (k : Nat) (hk : k < 16) :
    w &&& 0xF000#16 = BitVec.ofNat 16 (k * 4096) ↔ fieldOp w = k := by
  have h : w &&& 0xF000#16 = (w >>> 12) <<< 12 ||| 0#16 := by
    ext i hi
    interval_cases i <;> simp
  have := w.isLt
  rw [h, ← BitVec.toNat_inj, toNat_highNibble_or w 0 0#16 (by decide) (by simp [Nat.mod_one])]
  simp [fieldOp, Nat.mod_one]
  omega

/-- The mask of format XY compares the leading and the trailing nibble. -/
theorem mask_F00F (w : Word) (k n : Nat) (hk : k < 16) (hn : n < 16) :
    w &&& 0xF00F#16 = BitVec.ofNat 16 (k * 4096 + n) ↔ fieldOp w = k ∧ fieldN w = n := by
  have h : w &&& 0xF00F#16 = (w >>> 12) <<< 12 ||| (w &&& 0xF#16) := by
    ext i hi
    interval_cases i <;> simp
  have := w.isLt
  rw [h, ← BitVec.toNat_inj,
    toNat_highNibble_or w 4 _ (by decide) (by simpa using Nat.and_two_pow_sub_one_eq_mod w.toNat 4)]
  simp [fieldOp, fieldN]
  omega

/-- The mask of format X compares the leading nibble and the trailing byte. -/
theorem mask_F0FF (w : Word) (k n : Nat) (hk : k < 16) (hn : n < 256) :
    w &&& 0xF0FF#16 = BitVec.ofNat 16 (k * 4096 + n) ↔ fieldOp w = k ∧ w.toNat % 256 = n := by
  have h : w &&& 0xF0FF#16 = (w >>> 12) <<< 12 ||| (w &&& 0xFF#16) := by
    ext i hi
    interval_cases i <;> simp
  have := w.isLt
  rw [h, ← BitVec.toNat_inj,
    toNat_highNibble_or w 8 _ (by decide) (by simpa using Nat.and_two_pow_sub_one_eq_mod w.toNat 8)]
  simp [fieldOp]
  omega

end Sys2Proof
end

