-- ==== Sys2Proof/Laws/State.lean ====
section
/-! SUPPORT. One lemma per field per state update, so that no proof unfolds a record update. -/

namespace Sys2Proof.Machine

/-! ### `State.raise` -/

@[simp] theorem State.raise_V (s : State) (c : FatalCause) : (s.raise c).V = s.V := rfl
@[simp] theorem State.raise_I (s : State) (c : FatalCause) : (s.raise c).I = s.I := rfl
@[simp] theorem State.raise_pc (s : State) (c : FatalCause) : (s.raise c).pc = s.pc := rfl
@[simp] theorem State.raise_stack (s : State) (c : FatalCause) : (s.raise c).stack = s.stack := rfl
@[simp] theorem State.raise_DT (s : State) (c : FatalCause) : (s.raise c).DT = s.DT := rfl
@[simp] theorem State.raise_ST (s : State) (c : FatalCause) : (s.raise c).ST = s.ST := rfl
@[simp] theorem State.raise_KEY (s : State) (c : FatalCause) : (s.raise c).KEY = s.KEY := rfl
@[simp] theorem State.raise_MEM (s : State) (c : FatalCause) : (s.raise c).MEM = s.MEM := rfl
@[simp] theorem State.raise_FB (s : State) (c : FatalCause) : (s.raise c).FB = s.FB := rfl
@[simp] theorem State.raise_halted (s : State) (c : FatalCause) :
    (s.raise c).halted = some c := rfl
@[simp] theorem State.raise_cfg (s : State) (c : FatalCause) : (s.raise c).cfg = s.cfg := rfl
@[simp] theorem State.raise_draws (s : State) (c : FatalCause) : (s.raise c).draws = s.draws := rfl

/-! ### `State.setPc` -/

@[simp] theorem State.setPc_V (s : State) (t : Nat) : (s.setPc t).V = s.V := rfl
@[simp] theorem State.setPc_I (s : State) (t : Nat) : (s.setPc t).I = s.I := rfl
@[simp] theorem State.setPc_pc (s : State) (t : Nat) :
    (s.setPc t).pc = storedPc s.cfg.addrPolicy t := rfl
@[simp] theorem State.setPc_stack (s : State) (t : Nat) : (s.setPc t).stack = s.stack := rfl
@[simp] theorem State.setPc_DT (s : State) (t : Nat) : (s.setPc t).DT = s.DT := rfl
@[simp] theorem State.setPc_ST (s : State) (t : Nat) : (s.setPc t).ST = s.ST := rfl
@[simp] theorem State.setPc_KEY (s : State) (t : Nat) : (s.setPc t).KEY = s.KEY := rfl
@[simp] theorem State.setPc_MEM (s : State) (t : Nat) : (s.setPc t).MEM = s.MEM := rfl
@[simp] theorem State.setPc_FB (s : State) (t : Nat) : (s.setPc t).FB = s.FB := rfl
@[simp] theorem State.setPc_halted (s : State) (t : Nat) : (s.setPc t).halted = s.halted := rfl
@[simp] theorem State.setPc_cfg (s : State) (t : Nat) : (s.setPc t).cfg = s.cfg := rfl
@[simp] theorem State.setPc_draws (s : State) (t : Nat) : (s.setPc t).draws = s.draws := rfl

/-! ### `State.advance` -/

@[simp] theorem State.advance_V (s : State) : (s.advance).V = s.V := rfl
@[simp] theorem State.advance_I (s : State) : (s.advance).I = s.I := rfl
@[simp] theorem State.advance_pc (s : State) :
    (s.advance).pc = storedPc s.cfg.addrPolicy (s.pc.toNat + 2) := rfl
@[simp] theorem State.advance_stack (s : State) : (s.advance).stack = s.stack := rfl
@[simp] theorem State.advance_DT (s : State) : (s.advance).DT = s.DT := rfl
@[simp] theorem State.advance_ST (s : State) : (s.advance).ST = s.ST := rfl
@[simp] theorem State.advance_KEY (s : State) : (s.advance).KEY = s.KEY := rfl
@[simp] theorem State.advance_MEM (s : State) : (s.advance).MEM = s.MEM := rfl
@[simp] theorem State.advance_FB (s : State) : (s.advance).FB = s.FB := rfl
@[simp] theorem State.advance_halted (s : State) : (s.advance).halted = s.halted := rfl
@[simp] theorem State.advance_cfg (s : State) : (s.advance).cfg = s.cfg := rfl
@[simp] theorem State.advance_draws (s : State) : (s.advance).draws = s.draws := rfl

/-! ### `State.stall` -/

@[simp] theorem State.stall_V (s : State) : (s.stall).V = s.V := rfl
@[simp] theorem State.stall_I (s : State) : (s.stall).I = s.I := rfl
@[simp] theorem State.stall_pc (s : State) :
    (s.stall).pc = storedPc s.cfg.addrPolicy (s.pc - 2).toNat := rfl
@[simp] theorem State.stall_stack (s : State) : (s.stall).stack = s.stack := rfl
@[simp] theorem State.stall_DT (s : State) : (s.stall).DT = s.DT := rfl
@[simp] theorem State.stall_ST (s : State) : (s.stall).ST = s.ST := rfl
@[simp] theorem State.stall_KEY (s : State) : (s.stall).KEY = s.KEY := rfl
@[simp] theorem State.stall_MEM (s : State) : (s.stall).MEM = s.MEM := rfl
@[simp] theorem State.stall_FB (s : State) : (s.stall).FB = s.FB := rfl
@[simp] theorem State.stall_halted (s : State) : (s.stall).halted = s.halted := rfl
@[simp] theorem State.stall_cfg (s : State) : (s.stall).cfg = s.cfg := rfl
@[simp] theorem State.stall_draws (s : State) : (s.stall).draws = s.draws := rfl

/-! ### `State.writeCells` -/

@[simp] theorem State.writeCells_V (s : State) (cells : List (Nat × Byte)) : (s.writeCells cells).V = s.V := rfl
@[simp] theorem State.writeCells_I (s : State) (cells : List (Nat × Byte)) : (s.writeCells cells).I = s.I := rfl
@[simp] theorem State.writeCells_pc (s : State) (cells : List (Nat × Byte)) : (s.writeCells cells).pc = s.pc := rfl
@[simp] theorem State.writeCells_stack (s : State) (cells : List (Nat × Byte)) : (s.writeCells cells).stack = s.stack := rfl
@[simp] theorem State.writeCells_DT (s : State) (cells : List (Nat × Byte)) : (s.writeCells cells).DT = s.DT := rfl
@[simp] theorem State.writeCells_ST (s : State) (cells : List (Nat × Byte)) : (s.writeCells cells).ST = s.ST := rfl
@[simp] theorem State.writeCells_KEY (s : State) (cells : List (Nat × Byte)) : (s.writeCells cells).KEY = s.KEY := rfl
@[simp] theorem State.writeCells_MEM (s : State) (cells : List (Nat × Byte)) :
    (s.writeCells cells).MEM = s.MEM.writeAll cells := rfl
@[simp] theorem State.writeCells_FB (s : State) (cells : List (Nat × Byte)) : (s.writeCells cells).FB = s.FB := rfl
@[simp] theorem State.writeCells_halted (s : State) (cells : List (Nat × Byte)) : (s.writeCells cells).halted = s.halted := rfl
@[simp] theorem State.writeCells_cfg (s : State) (cells : List (Nat × Byte)) : (s.writeCells cells).cfg = s.cfg := rfl
@[simp] theorem State.writeCells_draws (s : State) (cells : List (Nat × Byte)) : (s.writeCells cells).draws = s.draws := rfl

/-! ### `State.setV` -/

@[simp] theorem State.setV_V (s : State) (r : Reg) (v : Byte) :
    (s.setV r v).V = s.V.set r v := rfl
@[simp] theorem State.setV_I (s : State) (r : Reg) (v : Byte) : (s.setV r v).I = s.I := rfl
@[simp] theorem State.setV_pc (s : State) (r : Reg) (v : Byte) : (s.setV r v).pc = s.pc := rfl
@[simp] theorem State.setV_stack (s : State) (r : Reg) (v : Byte) : (s.setV r v).stack = s.stack := rfl
@[simp] theorem State.setV_DT (s : State) (r : Reg) (v : Byte) : (s.setV r v).DT = s.DT := rfl
@[simp] theorem State.setV_ST (s : State) (r : Reg) (v : Byte) : (s.setV r v).ST = s.ST := rfl
@[simp] theorem State.setV_KEY (s : State) (r : Reg) (v : Byte) : (s.setV r v).KEY = s.KEY := rfl
@[simp] theorem State.setV_MEM (s : State) (r : Reg) (v : Byte) : (s.setV r v).MEM = s.MEM := rfl
@[simp] theorem State.setV_FB (s : State) (r : Reg) (v : Byte) : (s.setV r v).FB = s.FB := rfl
@[simp] theorem State.setV_halted (s : State) (r : Reg) (v : Byte) : (s.setV r v).halted = s.halted := rfl
@[simp] theorem State.setV_cfg (s : State) (r : Reg) (v : Byte) : (s.setV r v).cfg = s.cfg := rfl
@[simp] theorem State.setV_draws (s : State) (r : Reg) (v : Byte) : (s.setV r v).draws = s.draws := rfl

/-! ### `State.setVFlag` -/

@[simp] theorem State.setVFlag_V (s : State) (r : Reg) (v : Byte) (c : Bool) :
    (s.setVFlag r v c).V = (s.V.set r v).set VF (flagByte c) := rfl
@[simp] theorem State.setVFlag_I (s : State) (r : Reg) (v : Byte) (c : Bool) : (s.setVFlag r v c).I = s.I := rfl
@[simp] theorem State.setVFlag_pc (s : State) (r : Reg) (v : Byte) (c : Bool) : (s.setVFlag r v c).pc = s.pc := rfl
@[simp] theorem State.setVFlag_stack (s : State) (r : Reg) (v : Byte) (c : Bool) : (s.setVFlag r v c).stack = s.stack := rfl
@[simp] theorem State.setVFlag_DT (s : State) (r : Reg) (v : Byte) (c : Bool) : (s.setVFlag r v c).DT = s.DT := rfl
@[simp] theorem State.setVFlag_ST (s : State) (r : Reg) (v : Byte) (c : Bool) : (s.setVFlag r v c).ST = s.ST := rfl
@[simp] theorem State.setVFlag_KEY (s : State) (r : Reg) (v : Byte) (c : Bool) : (s.setVFlag r v c).KEY = s.KEY := rfl
@[simp] theorem State.setVFlag_MEM (s : State) (r : Reg) (v : Byte) (c : Bool) : (s.setVFlag r v c).MEM = s.MEM := rfl
@[simp] theorem State.setVFlag_FB (s : State) (r : Reg) (v : Byte) (c : Bool) : (s.setVFlag r v c).FB = s.FB := rfl
@[simp] theorem State.setVFlag_halted (s : State) (r : Reg) (v : Byte) (c : Bool) : (s.setVFlag r v c).halted = s.halted := rfl
@[simp] theorem State.setVFlag_cfg (s : State) (r : Reg) (v : Byte) (c : Bool) : (s.setVFlag r v c).cfg = s.cfg := rfl
@[simp] theorem State.setVFlag_draws (s : State) (r : Reg) (v : Byte) (c : Bool) : (s.setVFlag r v c).draws = s.draws := rfl

/-! ### `State.setRegs` -/

@[simp] theorem State.setRegs_V (s : State) (bs : List Byte) :
    (s.setRegs bs).V = loadInto s.V 0 bs := rfl
@[simp] theorem State.setRegs_I (s : State) (bs : List Byte) : (s.setRegs bs).I = s.I := rfl
@[simp] theorem State.setRegs_pc (s : State) (bs : List Byte) : (s.setRegs bs).pc = s.pc := rfl
@[simp] theorem State.setRegs_stack (s : State) (bs : List Byte) : (s.setRegs bs).stack = s.stack := rfl
@[simp] theorem State.setRegs_DT (s : State) (bs : List Byte) : (s.setRegs bs).DT = s.DT := rfl
@[simp] theorem State.setRegs_ST (s : State) (bs : List Byte) : (s.setRegs bs).ST = s.ST := rfl
@[simp] theorem State.setRegs_KEY (s : State) (bs : List Byte) : (s.setRegs bs).KEY = s.KEY := rfl
@[simp] theorem State.setRegs_MEM (s : State) (bs : List Byte) : (s.setRegs bs).MEM = s.MEM := rfl
@[simp] theorem State.setRegs_FB (s : State) (bs : List Byte) : (s.setRegs bs).FB = s.FB := rfl
@[simp] theorem State.setRegs_halted (s : State) (bs : List Byte) : (s.setRegs bs).halted = s.halted := rfl
@[simp] theorem State.setRegs_cfg (s : State) (bs : List Byte) : (s.setRegs bs).cfg = s.cfg := rfl
@[simp] theorem State.setRegs_draws (s : State) (bs : List Byte) : (s.setRegs bs).draws = s.draws := rfl

/-! ### `State.bumpI` -/

@[simp] theorem State.bumpI_V (s : State) (x : Reg) : (s.bumpI x).V = s.V := rfl
@[simp] theorem State.bumpI_I (s : State) (x : Reg) :
    (s.bumpI x).I = if s.cfg.memoryIncrementQuirk then BitVec.ofNat 16 ((s.I.toNat + x.val + 1) % 4096) else s.I := rfl
@[simp] theorem State.bumpI_pc (s : State) (x : Reg) : (s.bumpI x).pc = s.pc := rfl
@[simp] theorem State.bumpI_stack (s : State) (x : Reg) : (s.bumpI x).stack = s.stack := rfl
@[simp] theorem State.bumpI_DT (s : State) (x : Reg) : (s.bumpI x).DT = s.DT := rfl
@[simp] theorem State.bumpI_ST (s : State) (x : Reg) : (s.bumpI x).ST = s.ST := rfl
@[simp] theorem State.bumpI_KEY (s : State) (x : Reg) : (s.bumpI x).KEY = s.KEY := rfl
@[simp] theorem State.bumpI_MEM (s : State) (x : Reg) : (s.bumpI x).MEM = s.MEM := rfl
@[simp] theorem State.bumpI_FB (s : State) (x : Reg) : (s.bumpI x).FB = s.FB := rfl
@[simp] theorem State.bumpI_halted (s : State) (x : Reg) : (s.bumpI x).halted = s.halted := rfl
@[simp] theorem State.bumpI_cfg (s : State) (x : Reg) : (s.bumpI x).cfg = s.cfg := rfl
@[simp] theorem State.bumpI_draws (s : State) (x : Reg) : (s.bumpI x).draws = s.draws := rfl

/-! ### `State.skipIf` -/

@[simp] theorem State.skipIf_V (s : State) (c : Bool) : (s.skipIf c).V = s.V := by cases c <;> rfl
@[simp] theorem State.skipIf_I (s : State) (c : Bool) : (s.skipIf c).I = s.I := by cases c <;> rfl
@[simp] theorem State.skipIf_pc (s : State) (c : Bool) :
    (s.skipIf c).pc = if c then storedPc s.cfg.addrPolicy (s.pc.toNat + 2) else s.pc := by
  cases c <;> rfl
@[simp] theorem State.skipIf_stack (s : State) (c : Bool) : (s.skipIf c).stack = s.stack := by cases c <;> rfl
@[simp] theorem State.skipIf_DT (s : State) (c : Bool) : (s.skipIf c).DT = s.DT := by cases c <;> rfl
@[simp] theorem State.skipIf_ST (s : State) (c : Bool) : (s.skipIf c).ST = s.ST := by cases c <;> rfl
@[simp] theorem State.skipIf_KEY (s : State) (c : Bool) : (s.skipIf c).KEY = s.KEY := by cases c <;> rfl
@[simp] theorem State.skipIf_MEM (s : State) (c : Bool) : (s.skipIf c).MEM = s.MEM := by cases c <;> rfl
@[simp] theorem State.skipIf_FB (s : State) (c : Bool) : (s.skipIf c).FB = s.FB := by cases c <;> rfl
@[simp] theorem State.skipIf_halted (s : State) (c : Bool) : (s.skipIf c).halted = s.halted := by cases c <;> rfl
@[simp] theorem State.skipIf_cfg (s : State) (c : Bool) : (s.skipIf c).cfg = s.cfg := by cases c <;> rfl
@[simp] theorem State.skipIf_draws (s : State) (c : Bool) : (s.skipIf c).draws = s.draws := by cases c <;> rfl

/-! ### `State.drawSprite` -/

@[simp] theorem State.drawSprite_V (s : State) (x y : Reg) (rows : List Byte) :
    (s.drawSprite x y rows).V =
      s.V.set VF (flagByte (blitRows (s.FB, false) (s.getV x).toNat (s.getV y).toNat 0 rows).2) := rfl
@[simp] theorem State.drawSprite_I (s : State) (x y : Reg) (rows : List Byte) :
    (s.drawSprite x y rows).I = s.I := rfl
@[simp] theorem State.drawSprite_pc (s : State) (x y : Reg) (rows : List Byte) :
    (s.drawSprite x y rows).pc = s.pc := rfl
@[simp] theorem State.drawSprite_stack (s : State) (x y : Reg) (rows : List Byte) :
    (s.drawSprite x y rows).stack = s.stack := rfl
@[simp] theorem State.drawSprite_DT (s : State) (x y : Reg) (rows : List Byte) :
    (s.drawSprite x y rows).DT = s.DT := rfl
@[simp] theorem State.drawSprite_ST (s : State) (x y : Reg) (rows : List Byte) :
    (s.drawSprite x y rows).ST = s.ST := rfl
@[simp] theorem State.drawSprite_KEY (s : State) (x y : Reg) (rows : List Byte) :
    (s.drawSprite x y rows).KEY = s.KEY := rfl
@[simp] theorem State.drawSprite_MEM (s : State) (x y : Reg) (rows : List Byte) :
    (s.drawSprite x y rows).MEM = s.MEM := rfl
@[simp] theorem State.drawSprite_FB (s : State) (x y : Reg) (rows : List Byte) :
    (s.drawSprite x y rows).FB = (blitRows (s.FB, false) (s.getV x).toNat (s.getV y).toNat 0 rows).1 := rfl
@[simp] theorem State.drawSprite_halted (s : State) (x y : Reg) (rows : List Byte) :
    (s.drawSprite x y rows).halted = s.halted := rfl
@[simp] theorem State.drawSprite_cfg (s : State) (x y : Reg) (rows : List Byte) :
    (s.drawSprite x y rows).cfg = s.cfg := rfl
@[simp] theorem State.drawSprite_draws (s : State) (x y : Reg) (rows : List Byte) :
    (s.drawSprite x y rows).draws = s.draws := rfl

/-! ### Reading a register after a write -/

/-- Read after write of the register file. -/
theorem State.getV_setV (s : State) (r q : Reg) (v : Byte) :
    (s.setV r v).getV q = if q = r then v else s.getV q := by
  simp only [State.getV, State.setV, Fin.getElem_fin, Vector.getElem_set, Fin.ext_iff, eq_comm]

/-- A register read depends on the register file alone. -/
theorem State.getV_congr {s t : State} (h : t.V = s.V) (r : Reg) : t.getV r = s.getV r := by
  simp only [State.getV, h]

/-- Two machine states are equal when their components are (R20). -/
theorem CoreState.ext_fields {s t : CoreState} (hV : s.V = t.V) (hI : s.I = t.I) (hpc : s.pc = t.pc)
    (hst : s.stack = t.stack) (hDT : s.DT = t.DT) (hST : s.ST = t.ST) (hK : s.KEY = t.KEY)
    (hM : s.MEM = t.MEM) (hF : s.FB = t.FB) (hh : s.halted = t.halted) : s = t := by
  cases s
  cases t
  simp_all

/-- Two states are equal when the machine states, the configurations and the draw counters are. -/
theorem State.ext_core {s t : State} (h : s.toCoreState = t.toCoreState) (hc : s.cfg = t.cfg)
    (hd : s.draws = t.draws) : s = t := by
  cases s
  cases t
  simp_all

/-- Two states are equal when their fields are. -/
theorem State.ext_fields {s t : State} (hV : s.V = t.V) (hI : s.I = t.I) (hpc : s.pc = t.pc)
    (hst : s.stack = t.stack) (hDT : s.DT = t.DT) (hST : s.ST = t.ST) (hK : s.KEY = t.KEY)
    (hM : s.MEM = t.MEM) (hF : s.FB = t.FB) (hh : s.halted = t.halted) (hc : s.cfg = t.cfg)
    (hd : s.draws = t.draws) : s = t :=
  State.ext_core (CoreState.ext_fields hV hI hpc hst hDT hST hK hM hF hh) hc hd

/-! ### Creation -/

@[simp] theorem CoreState.creation_V : CoreState.creation.V = Vector.replicate 16 0 := rfl
@[simp] theorem CoreState.creation_I : CoreState.creation.I = 0 := rfl
@[simp] theorem CoreState.creation_pc : CoreState.creation.pc = 0x200 := rfl
@[simp] theorem CoreState.creation_stack : CoreState.creation.stack = [] := rfl
@[simp] theorem CoreState.creation_DT : CoreState.creation.DT = 0 := rfl
@[simp] theorem CoreState.creation_ST : CoreState.creation.ST = 0 := rfl
@[simp] theorem CoreState.creation_KEY : CoreState.creation.KEY = Vector.replicate 16 false := rfl
@[simp] theorem CoreState.creation_MEM : CoreState.creation.MEM = [] := rfl
@[simp] theorem CoreState.creation_halted : CoreState.creation.halted = none := rfl
@[simp] theorem CoreState.creation_FB :
    CoreState.creation.FB = Vector.replicate 32 (Vector.replicate 64 false) := rfl

/-- Creation puts the machine's state at its creation value, whatever the configuration (R36, R240). -/
@[simp] theorem State.create_core (c : Config) : (State.create c).toCoreState = CoreState.creation := rfl
@[simp] theorem State.create_cfg (c : Config) : (State.create c).cfg = c := rfl

end Sys2Proof.Machine
end

