-- ==== Sys2Proof/Laws/Memory.lean ====
section
/-! SUPPORT. The laws of memory: read after write, and that every memory operation keeps the canonical
form. -/

namespace Sys2Proof.Machine

/-! ### Read after write -/

theorem Memory.read_erase (m : Memory) (a b : Nat) :
    (m.erase a).read b = if b = a then Memory.background b else m.read b := by
  induction m with
  | nil => simp [Memory.erase, Memory.read]
  | cons c rest ih =>
    obtain ⟨k, v⟩ := c
    unfold Memory.erase at ih ⊢
    by_cases hk : k = a
    · subst hk
      by_cases hb : b = k <;> simp_all [Memory.read, eq_comm]
    · by_cases hb : k = b <;> simp_all [Memory.read]

theorem Memory.read_insertCell (m : Memory) (a b : Nat) (v : Byte) (h : ∀ c ∈ m, c.1 ≠ a) :
    (m.insertCell a v).read b = if b = a then v else m.read b := by
  induction m with
  | nil => simp [Memory.insertCell, Memory.read, eq_comm]
  | cons c rest ih =>
    obtain ⟨k, w⟩ := c
    have hk : k ≠ a := h (k, w) (by simp)
    have ih := ih (fun c hc => h c (by simp [hc]))
    unfold Memory.insertCell
    split
    · simp [Memory.read, eq_comm]
    · by_cases hb : k = b
      · subst hb
        simp [Memory.read, hk]
      · simp [Memory.read, hb, ih]

theorem Memory.erase_ne (m : Memory) (a : Nat) : ∀ c ∈ m.erase a, c.1 ≠ a := by
  intro c hc
  simpa [Memory.erase] using (List.mem_filter.mp hc).2

/-- A read after a write gives the byte written, and every other address reads as before. -/
theorem Memory.read_write (m : Memory) (a b : Nat) (v : Byte) :
    (m.write a v).read b = if b = a then v else m.read b := by
  unfold Memory.write
  split
  · rename_i h
    rw [Memory.read_erase]
    split <;> simp_all
  · rw [Memory.read_insertCell _ _ _ _ (Memory.erase_ne m a), Memory.read_erase]
    split <;> simp_all

/-- An address outside a list of writes reads as before. -/
theorem Memory.read_writeAll_of_ne (cells : List (Nat × Byte)) (m : Memory) (b : Nat)
    (h : ∀ c ∈ cells, c.1 ≠ b) : (m.writeAll cells).read b = m.read b := by
  induction cells generalizing m with
  | nil => rfl
  | cons c rest ih =>
    obtain ⟨a, v⟩ := c
    have ha : b ≠ a := fun e => h (a, v) (by simp) e.symm
    rw [Memory.writeAll, ih _ (fun c hc => h c (by simp [hc])), Memory.read_write, if_neg ha]

/-- After writes to distinct addresses each of them reads as its byte. -/
theorem Memory.read_writeAll_of_mem (cells : List (Nat × Byte)) (m : Memory) (a : Nat) (v : Byte)
    (hd : (cells.map Prod.fst).Nodup) (h : (a, v) ∈ cells) : (m.writeAll cells).read a = v := by
  induction cells generalizing m with
  | nil => simp at h
  | cons c rest ih =>
    obtain ⟨b, w⟩ := c
    simp only [List.map_cons, List.nodup_cons] at hd
    rcases List.mem_cons.mp h with h | h
    · obtain ⟨rfl, rfl⟩ := Prod.mk.inj h
      rw [Memory.writeAll, Memory.read_writeAll_of_ne, Memory.read_write, if_pos rfl]
      intro c hc hca
      exact hd.1 (List.mem_map.mpr ⟨c, hc, hca⟩)
    · exact ih _ hd.2 h

/-! ### The canonical form -/

/-- Every cell of a list in canonical form, one by one. -/
theorem Memory.wf_cons (k : Nat) (b : Byte) (rest : Memory) :
    Memory.wf ((k, b) :: rest) = true ↔
      k < 4096 ∧ b ≠ Memory.background k ∧ (∀ c ∈ rest, k < c.1) ∧ rest.wf = true := by
  simp [Memory.wf, and_assoc]

theorem Memory.erase_wf (m : Memory) (a : Nat) (h : m.wf = true) : (m.erase a).wf = true := by
  induction m with
  | nil => rfl
  | cons c rest ih =>
    obtain ⟨k, b⟩ := c
    rw [Memory.wf_cons] at h
    have ih := ih h.2.2.2
    unfold Memory.erase at ih ⊢
    rw [List.filter_cons]
    split
    · rw [Memory.wf_cons]
      exact ⟨h.1, h.2.1, fun c hc => h.2.2.1 c (List.mem_of_mem_filter hc), ih⟩
    · exact ih

theorem Memory.mem_insertCell (m : Memory) (a : Nat) (v : Byte) (c : Host.Cell)
    (h : c ∈ m.insertCell a v) : c = (a, v) ∨ c ∈ m := by
  induction m with
  | nil => simpa [Memory.insertCell] using h
  | cons d rest ih =>
    obtain ⟨k, b⟩ := d
    unfold Memory.insertCell at h
    split at h
    · simpa using h
    · rcases List.mem_cons.mp h with h | h
      · simp [h]
      · rcases ih h with h | h <;> simp [h]

theorem Memory.insertCell_wf (m : Memory) (a : Nat) (v : Byte) (h : m.wf = true) (ha : a < 4096)
    (hv : v ≠ Memory.background a) (hm : ∀ c ∈ m, c.1 ≠ a) : (m.insertCell a v).wf = true := by
  induction m with
  | nil => simp [Memory.insertCell, Memory.wf, ha, hv]
  | cons c rest ih =>
    obtain ⟨k, b⟩ := c
    have hk : k ≠ a := hm (k, b) (by simp)
    have hw := (Memory.wf_cons k b rest).mp h
    unfold Memory.insertCell
    split
    · rename_i hlt
      refine (Memory.wf_cons _ _ _).mpr ⟨ha, hv, ?_, h⟩
      intro c hc
      rcases List.mem_cons.mp hc with rfl | hc
      · exact hlt
      · exact Nat.lt_trans hlt (hw.2.2.1 c hc)
    · refine (Memory.wf_cons _ _ _).mpr ⟨hw.1, hw.2.1, ?_, ih hw.2.2.2 (fun c hc => hm c (by simp [hc]))⟩
      intro c hc
      rcases Memory.mem_insertCell _ _ _ _ hc with rfl | hc
      · show k < a
        omega
      · exact hw.2.2.1 c hc

/-- A write to an existing address keeps the canonical form. -/
theorem Memory.write_wf (m : Memory) (a : Nat) (v : Byte) (h : m.wf = true) (ha : a < 4096) :
    (m.write a v).wf = true := by
  unfold Memory.write
  split
  · exact Memory.erase_wf m a h
  · rename_i hv
    exact Memory.insertCell_wf _ a v (Memory.erase_wf m a h) ha hv (Memory.erase_ne m a)

/-- A list of writes to existing addresses keeps the canonical form. -/
theorem Memory.writeAll_wf (cells : List (Nat × Byte)) (m : Memory) (h : m.wf = true)
    (ha : ∀ c ∈ cells, c.1 < 4096) : (m.writeAll cells).wf = true := by
  induction cells generalizing m with
  | nil => exact h
  | cons c rest ih =>
    obtain ⟨a, v⟩ := c
    exact ih _ (Memory.write_wf m a v h (ha (a, v) (by simp))) (fun c hc => ha c (by simp [hc]))

/-- The memory after reset is in canonical form. -/
theorem State.reset_mem_wf : State.reset.MEM.wf = true := rfl

end Sys2Proof.Machine
end

