-- ==== Sys2Proof/Laws/Ops.lean ====
section
/-! SUPPORT. What each shared operation can do, said once: address formation, memory access, fetch, the call
stack, the random byte, and the step. -/

namespace Sys2Proof.Machine

/-! ### Addresses -/

theorem formAddr_eq_ok (p : AddrPolicy) (a b : Nat) :
    formAddr p a = .ok b ↔ b = a % 4096 ∧ (p = .wrap ∨ a ≤ 0xFFF) := by
  cases p with
  | wrap => simp [formAddr, eq_comm]
  | fault =>
    by_cases h : a ≤ 0xFFF
    · simp only [formAddr, h, if_true, Except.ok.injEq, or_true, and_true]
      omega
    · simp [formAddr, h]

theorem formAddr_eq_error (p : AddrPolicy) (a b : Nat) :
    formAddr p a = .error b ↔ b = a ∧ p = .fault ∧ 0xFFF < a := by
  cases p with
  | wrap => simp [formAddr]
  | fault =>
    by_cases h : a ≤ 0xFFF
    · simp [formAddr, h]
    · simp only [formAddr, h, if_false, Except.error.injEq, true_and]
      omega

/-- Forming a list of addresses succeeds exactly when each is in range or the policy is WRAP, and then gives
each modulo 4096. -/
theorem formAddrs_eq_ok (p : AddrPolicy) (as bs : List Nat) :
    formAddrs p as = .ok bs ↔ bs = as.map (· % 4096) ∧ (p = .wrap ∨ ∀ a ∈ as, a ≤ 0xFFF) := by
  induction as generalizing bs with
  | nil => simp [formAddrs, eq_comm]
  | cons a rest ih =>
    unfold formAddrs
    cases h : formAddr p a with
    | error e =>
      obtain ⟨rfl, rfl, ha⟩ := (formAddr_eq_error _ _ _).mp h
      simp
      omega
    | ok b =>
      obtain ⟨rfl, hb⟩ := (formAddr_eq_ok _ _ _).mp h
      cases h' : formAddrs p rest with
      | error e =>
        have hn : ¬ (p = .wrap ∨ ∀ a ∈ rest, a ≤ 0xFFF) := by
          intro hc
          have := (ih (rest.map (· % 4096))).mpr ⟨rfl, hc⟩
          simp [h'] at this
        simp only [List.forall_mem_cons, reduceCtorEq, false_iff]
        tauto
      | ok cs =>
        obtain ⟨rfl, hc⟩ := (ih cs).mp h'
        simp only [Except.ok.injEq, List.map_cons, List.forall_mem_cons]
        constructor
        · rintro rfl
          exact ⟨rfl, by tauto⟩
        · rintro ⟨rfl, -⟩
          rfl

/-- Where forming a list of addresses fails, the error is one of them, above 0xFFF, under FAULT. -/
theorem formAddrs_eq_error {p : AddrPolicy} {as : List Nat} {e : Nat} (h : formAddrs p as = .error e) :
    p = .fault ∧ e ∈ as ∧ 0xFFF < e := by
  induction as with
  | nil => simp [formAddrs] at h
  | cons a rest ih =>
    unfold formAddrs at h
    cases h1 : formAddr p a with
    | error e' =>
      obtain ⟨rfl, rfl, ha⟩ := (formAddr_eq_error _ _ _).mp h1
      simp only [h1, Except.error.injEq] at h
      subst h
      exact ⟨rfl, by simp, ha⟩
    | ok b =>
      cases h2 : formAddrs p rest with
      | error e' =>
        simp only [h1, h2, Except.error.injEq] at h
        subst h
        obtain ⟨hp, hm, hl⟩ := ih h2
        exact ⟨hp, by simp [hm], hl⟩
      | ok cs => simp [h1, h2] at h

theorem mem_span (a n b : Nat) : b ∈ span a n ↔ ∃ k < n, b = a + k := by
  simp [span, eq_comm]

theorem length_span (a n : Nat) : (span a n).length = n := by simp [span]

/-- An n-byte access from I forms its addresses exactly when AccessFits. -/
theorem formAddrs_span_ok (s : State) (n : Nat) (h : AccessFits s n) :
    formAddrs s.cfg.addrPolicy (span s.I.toNat n) = .ok ((List.range n).map (byteAddr s)) := by
  rw [formAddrs_eq_ok]
  refine ⟨by simp [span, byteAddr, Function.comp_def], h.imp id fun h a ha => ?_⟩
  obtain ⟨k, hk, rfl⟩ := (mem_span _ _ _).mp ha
  exact h k hk

theorem formAddrs_span_error (s : State) (n : Nat) (h : ¬ AccessFits s n) :
    ∃ e, formAddrs s.cfg.addrPolicy (span s.I.toNat n) = .error e := by
  cases h' : formAddrs s.cfg.addrPolicy (span s.I.toNat n) with
  | error e => exact ⟨e, rfl⟩
  | ok bs =>
    have := ((formAddrs_eq_ok _ _ _).mp h').2
    exact absurd (this.imp id fun h k hk => h _ ((mem_span _ _ _).mpr ⟨k, hk, rfl⟩)) h

theorem memRead_ok (s : State) (n : Nat) (h : AccessFits s n) :
    s.memRead s.I.toNat n = .ok ((List.range n).map (fun k => s.readByte (byteAddr s k))) := by
  simp [State.memRead, formAddrs_span_ok s n h, Function.comp_def]

theorem memRead_error (s : State) (n : Nat) (h : ¬ AccessFits s n) : ∃ e, s.memRead s.I.toNat n = .error e := by
  obtain ⟨e, he⟩ := formAddrs_span_error s n h
  exact ⟨e, by simp [State.memRead, he]⟩

theorem memWrite_ok (s : State) (bs : List Byte) (h : AccessFits s bs.length) :
    s.memWrite s.I.toNat bs = .ok (s.writeCells (((List.range bs.length).map (byteAddr s)).zip bs)) := by
  simp [State.memWrite, formAddrs_span_ok s _ h]

theorem memWrite_error (s : State) (bs : List Byte) (h : ¬ AccessFits s bs.length) :
    ∃ e, s.memWrite s.I.toNat bs = .error e := by
  obtain ⟨e, he⟩ := formAddrs_span_error s _ h
  exact ⟨e, by simp [State.memWrite, he]⟩

/-- The addresses of up to 4096 consecutive bytes are distinct (R66). -/
theorem byteAddr_injective (s : State) {j k : Nat} (hj : j < 4096) (hk : k < 4096)
    (h : byteAddr s j = byteAddr s k) : j = k := by
  unfold byteAddr at h
  omega

theorem byteAddr_lt (s : State) (k : Nat) : byteAddr s k < 4096 := Nat.mod_lt _ (by decide)

theorem nodup_byteAddrs (s : State) (n : Nat) (hn : n ≤ 4096) : ((List.range n).map (byteAddr s)).Nodup := by
  refine List.Nodup.map_on ?_ List.nodup_range
  intro j hj k hk h
  simp only [List.mem_range] at hj hk
  exact byteAddr_injective s (by omega) (by omega) h

/-- A byte stored by a memory write reads back. -/
theorem readByte_writeCells_of_lt (s : State) (bs : List Byte) (hn : bs.length ≤ 4096) (k : Nat)
    (hk : k < bs.length) :
    (s.writeCells (((List.range bs.length).map (byteAddr s)).zip bs)).readByte (byteAddr s k) = bs[k] := by
  refine Memory.read_writeAll_of_mem _ _ _ _ ?_ ?_
  · rw [List.map_fst_zip (by simp)]
    exact nodup_byteAddrs s _ hn
  · refine List.mem_iff_getElem.mpr ⟨k, by simpa using hk, by simp⟩

/-- A byte outside the stored ones reads as before. -/
theorem readByte_writeCells_of_ne (s : State) (bs : List Byte) (a : Nat)
    (h : ∀ k < bs.length, a ≠ byteAddr s k) :
    (s.writeCells (((List.range bs.length).map (byteAddr s)).zip bs)).readByte a = s.readByte a := by
  refine Memory.read_writeAll_of_ne _ _ _ ?_
  intro c hc hca
  obtain ⟨k, hk, h'⟩ := List.mem_map.mp (List.of_mem_zip (a := c.1) (b := c.2) hc).1
  exact h k (List.mem_range.mp hk) (hca ▸ h'.symm)

/-- An instruction that forms addresses settles to a next state, whatever they are. -/
theorem settle_eq_next (s : State) (r : Except Nat State) : ∃ t, s.settle r = .next t := by
  cases r with
  | ok t => exact ⟨t, rfl⟩
  | error e => exact ⟨_, rfl⟩

/-! ### Program counter -/

theorem storedPc_eq_pcValue (p : AddrPolicy) (t : Nat) : storedPc p t = pcValue p t := by cases p <;> rfl

/-- A value already in range is stored as it is. -/
theorem storedPc_of_lt (p : AddrPolicy) (t : Nat) (h : t < 4096) : storedPc p t = BitVec.ofNat 16 t := by
  cases p with
  | wrap => simp [storedPc, Nat.mod_eq_of_lt h]
  | fault => rfl

/-! ### Fetch and the step -/

theorem fetch_eq_ok (s : State) (w : Word) :
    s.fetch = .ok w ↔ (s.cfg.addrPolicy = .wrap ∨ s.pc.toNat ≤ 0xFFE) ∧
      w = wordOfBytes (s.readByte (s.pc.toNat % 4096)) (s.readByte ((s.pc.toNat + 1) % 4096)) := by
  unfold State.fetch
  cases hp : s.cfg.addrPolicy with
  | wrap => simp [formAddr, eq_comm]
  | fault =>
    by_cases h : s.pc.toNat ≤ 0xFFE
    · have h1 : s.pc.toNat % 4096 = s.pc.toNat := by omega
      have h2 : (s.pc.toNat + 1) % 4096 = s.pc.toNat + 1 := by omega
      simp only [formAddr, show s.pc.toNat ≤ 0xFFF by omega, show s.pc.toNat + 1 ≤ 0xFFF by omega, if_true, h1, h2,
        Except.ok.injEq, h, or_true, true_and, eq_comm]
    · by_cases h' : s.pc.toNat ≤ 0xFFF
      · simp [formAddr, h', show ¬ s.pc.toNat + 1 ≤ 0xFFF by omega, h]
      · simp [formAddr, h', h]

theorem fetch_eq_error (s : State) (a : Nat) :
    s.fetch = .error a ↔ s.cfg.addrPolicy = .fault ∧ 0xFFE < s.pc.toNat ∧ a = s.pc.toNat := by
  unfold State.fetch
  cases hp : s.cfg.addrPolicy with
  | wrap => simp [formAddr]
  | fault =>
    by_cases h : s.pc.toNat ≤ 0xFFE
    · simp [formAddr, show s.pc.toNat ≤ 0xFFF by omega, show s.pc.toNat + 1 ≤ 0xFFF by omega, h]
    · by_cases h' : s.pc.toNat ≤ 0xFFF
      · simp [formAddr, h', show ¬ s.pc.toNat + 1 ≤ 0xFFF by omega, eq_comm]
        omega
      · simp [formAddr, h', eq_comm]
        omega

/-- Everything a step can do (R120): stay halted, fault at fetch, skip an illegal word, or execute. -/
theorem step_cases {s t : State} (h : step s = .next t) :
    (∃ c, s.halted = some c ∧ t = s) ∨
    (s.halted = none ∧ ∃ a, s.fetch = .error a ∧ t = s.raise .addressRange) ∨
    (s.halted = none ∧ ∃ w e, s.fetch = .ok w ∧ decode w = .error e ∧ t = s.advance) ∨
    (s.halted = none ∧ ∃ w i, s.fetch = .ok w ∧ decode w = .ok i ∧ exec i s.advance = .next t) := by
  unfold step cycle at h
  cases hh : s.halted with
  | some c =>
    simp only [hh, Host.Outcome.next.injEq] at h
    exact .inl ⟨c, rfl, h.symm⟩
  | none =>
    cases hf : s.fetch with
    | error a =>
      simp only [hh, hf, Host.Outcome.next.injEq] at h
      exact .inr (.inl ⟨rfl, a, rfl, h.symm⟩)
    | ok w =>
      simp only [hh, hf, runWord] at h
      cases hd : decode w with
      | error e =>
        simp only [hd, Host.Outcome.next.injEq] at h
        exact .inr (.inr (.inl ⟨rfl, w, e, rfl, hd, h.symm⟩))
      | ok i =>
        simp only [hd] at h
        exact .inr (.inr (.inr ⟨rfl, w, i, rfl, hd, h⟩))

/-- The step of a running state whose fetched word decodes. -/
theorem step_of_fetch_decode {s : State} {w : Word} {i : Instr} (hh : s.halted = none) (hf : s.fetch = .ok w)
    (hd : decode w = .ok i) : step s = exec i s.advance := by
  simp [step, cycle, runWord, hh, hf, hd]

/-! ### The call stack -/

theorem push_eq_some (s t : State) (v : Word) :
    s.push v = some t ↔ s.sp < 16 ∧ t = { s with stack := v :: s.stack } := by
  unfold State.push stackCapacity
  split <;> simp_all [eq_comm]

theorem push_eq_none (s : State) (v : Word) : s.push v = none ↔ 16 ≤ s.sp := by
  unfold State.push stackCapacity
  split <;> simp_all

end Sys2Proof.Machine
end

