-- ==== Sys2Proof/Laws/Draw.lean ====
section
/-! SUPPORT. The draw engine: one toggle, one row, the whole sprite. Because columns and rows of one sprite land on
distinct pixels (R172 e), a draw exclusive-ors the wrapped image and collides exactly on image pixels that were
set. -/

namespace Sys2Proof.Machine

theorem Framebuffer.pixel_toggle (fb : Framebuffer) (x qx : Fin 64) (y qy : Fin 32) :
    (fb.toggle x y).pixel qx qy = if qx = x ∧ qy = y then !fb.pixel x y else fb.pixel qx qy := by
  simp only [Framebuffer.pixel, Framebuffer.toggle, Fin.getElem_fin, Vector.getElem_set, Fin.ext_iff]
  by_cases hy : y.val = qy.val
  · by_cases hx : x.val = qx.val
    · simp [hx, hy]
    · simp [hx, hy, Ne.symm hx]
  · simp [hy, Ne.symm hy]

/-- Two framebuffers with the same pixels are equal. -/
theorem Framebuffer.ext_pixel {f g : Framebuffer} (h : ∀ x y, f.pixel x y = g.pixel x y) : f = g := by
  apply Vector.ext
  intro y hy
  apply Vector.ext
  intro x hx
  exact h ⟨x, hx⟩ ⟨y, hy⟩

theorem Framebuffer.pixel_blank (x : Fin 64) (y : Fin 32) : Framebuffer.blank.pixel x y = false := by
  simp [Framebuffer.pixel, Framebuffer.blank]

/-- The columns of one row: pixels on which a set bit lands are toggled, others kept; the collision flag rises
exactly where one of them was set. -/
theorem blitColumns_spec (cols : List Nat) (acc : Framebuffer × Bool) (x0 : Nat) (py : Fin 32) (row : Byte)
    (hlt : ∀ c ∈ cols, c < 64) (hnd : cols.Nodup) :
    let out := cols.foldl (fun acc c => blitPixel acc (Fin.ofNat 64 (x0 + c)) py (row.getLsbD (7 - c))) acc
    let on := fun (qx : Fin 64) (qy : Fin 32) =>
      qy = py ∧ ∃ c ∈ cols, row.getLsbD (7 - c) = true ∧ qx = Fin.ofNat 64 (x0 + c)
    (∀ qx qy, on qx qy → out.1.pixel qx qy = !acc.1.pixel qx qy) ∧
    (∀ qx qy, ¬ on qx qy → out.1.pixel qx qy = acc.1.pixel qx qy) ∧
    (out.2 = true ↔ acc.2 = true ∨ ∃ qx qy, on qx qy ∧ acc.1.pixel qx qy = true) := by
  induction cols generalizing acc with
  | nil => simp
  | cons c rest ih =>
    obtain ⟨hc, hnd⟩ := List.nodup_cons.mp hnd
    have hlt' : ∀ d ∈ rest, d < 64 := fun d hd => hlt d (by simp [hd])
    have hc64 := hlt c (by simp)
    have hfresh : ∀ d ∈ rest, Fin.ofNat 64 (x0 + c) ≠ Fin.ofNat 64 (x0 + d) := by
      intro d hd heq
      have h1 := congrArg Fin.val heq
      simp only [Fin.val_ofNat] at h1
      have h2 := hlt' d hd
      have h3 : c = d := by omega
      exact hc (h3 ▸ hd)
    obtain ⟨h1, h2, h3⟩ := ih (blitPixel acc (Fin.ofNat 64 (x0 + c)) py (row.getLsbD (7 - c))) hlt' hnd
    simp only [List.foldl_cons]
    by_cases hb : row.getLsbD (7 - c) = true
    · simp only [hb, blitPixel, if_true] at h1 h2 h3 ⊢
      have hoff : ∀ qx qy, (qy = py ∧ ∃ d ∈ rest, row.getLsbD (7 - d) = true ∧ qx = Fin.ofNat 64 (x0 + d)) →
          ¬ (qx = Fin.ofNat 64 (x0 + c) ∧ qy = py) := by
        rintro qx qy ⟨-, d, hd, -, rfl⟩ ⟨h, -⟩
        exact hfresh d hd h.symm
      refine ⟨?_, ?_, ?_⟩
      · rintro qx qy ⟨rfl, d, hd, hbit, rfl⟩
        rcases List.mem_cons.mp hd with rfl | hd
        · rw [h2, Framebuffer.pixel_toggle, if_pos ⟨rfl, rfl⟩]
          rintro ⟨-, e, he, -, heq⟩
          exact hfresh e he heq
        · rw [h1 _ _ ⟨rfl, d, hd, hbit, rfl⟩, Framebuffer.pixel_toggle, if_neg (hoff _ _ ⟨rfl, d, hd, hbit, rfl⟩)]
      · intro qx qy hn
        have hn' : ¬ (qy = py ∧ ∃ d ∈ rest, row.getLsbD (7 - d) = true ∧ qx = Fin.ofNat 64 (x0 + d)) := by
          rintro ⟨rfl, d, hd, hbit, rfl⟩
          exact hn ⟨rfl, d, by simp [hd], hbit, rfl⟩
        rw [h2 _ _ hn', Framebuffer.pixel_toggle, if_neg]
        rintro ⟨rfl, rfl⟩
        exact hn ⟨rfl, c, by simp, hb, rfl⟩
      · rw [h3, Bool.or_eq_true]
        constructor
        · rintro ((h | h) | ⟨qx, qy, hon, hp⟩)
          · exact .inl h
          · exact .inr ⟨_, _, ⟨rfl, c, by simp, hb, rfl⟩, h⟩
          · rw [Framebuffer.pixel_toggle, if_neg (hoff _ _ hon)] at hp
            obtain ⟨rfl, d, hd, hbit, rfl⟩ := hon
            exact .inr ⟨_, _, ⟨rfl, d, by simp [hd], hbit, rfl⟩, hp⟩
        · rintro (h | ⟨qx, qy, ⟨rfl, d, hd, hbit, rfl⟩, hp⟩)
          · exact .inl (.inl h)
          · rcases List.mem_cons.mp hd with rfl | hd
            · exact .inl (.inr hp)
            · refine .inr ⟨_, _, ⟨rfl, d, hd, hbit, rfl⟩, ?_⟩
              rw [Framebuffer.pixel_toggle, if_neg (hoff _ _ ⟨rfl, d, hd, hbit, rfl⟩)]
              exact hp
    · simp only [hb, blitPixel] at h1 h2 h3 ⊢
      have hiff : ∀ qx : Fin 64, (∃ d ∈ c :: rest, row.getLsbD (7 - d) = true ∧ qx = Fin.ofNat 64 (x0 + d)) ↔
          ∃ d ∈ rest, row.getLsbD (7 - d) = true ∧ qx = Fin.ofNat 64 (x0 + d) := by
        intro qx
        simp [hb]
      simp only [hiff]
      exact ⟨h1, h2, h3⟩

/-- Row `r` of a sprite puts a set bit on pixel `(qx, qy)`. -/
def rowImage (row : Byte) (x0 : Nat) (py : Fin 32) (qx : Fin 64) (qy : Fin 32) : Prop :=
  qy = py ∧ ∃ c < 8, row.getLsbD (7 - c) = true ∧ qx.val = (x0 + c) % 64

theorem blitRow_spec (acc : Framebuffer × Bool) (x0 : Nat) (py : Fin 32) (row : Byte) :
    (∀ qx qy, rowImage row x0 py qx qy → (blitRow acc x0 py row).1.pixel qx qy = !acc.1.pixel qx qy) ∧
    (∀ qx qy, ¬ rowImage row x0 py qx qy → (blitRow acc x0 py row).1.pixel qx qy = acc.1.pixel qx qy) ∧
    ((blitRow acc x0 py row).2 = true ↔
      acc.2 = true ∨ ∃ qx qy, rowImage row x0 py qx qy ∧ acc.1.pixel qx qy = true) := by
  have h := blitColumns_spec (List.range 8) acc x0 py row (by simp; omega) List.nodup_range
  simpa only [rowImage, blitRow, List.mem_range, Fin.ext_iff, Fin.val_ofNat] using h

theorem spriteImage_nil (x0 y0 : Nat) (qx : Fin 64) (qy : Fin 32) : ¬ spriteImage [] x0 y0 qx qy := by
  rintro ⟨r, c, hr, -⟩
  simp at hr

theorem spriteImage_cons (row : Byte) (rest : List Byte) (x0 y0 : Nat) (qx : Fin 64) (qy : Fin 32) :
    spriteImage (row :: rest) x0 y0 qx qy ↔
      rowImage row x0 (Fin.ofNat 32 y0) qx qy ∨ spriteImage rest x0 (y0 + 1) qx qy := by
  constructor
  · rintro ⟨r, c, hr, hc, hbit, hx, hy⟩
    cases r with
    | zero => exact .inl ⟨Fin.ext (by simpa using hy), c, hc, by simpa [spriteBit] using hbit, hx⟩
    | succ r =>
      refine .inr ⟨r, c, by simpa using hr, hc, by simpa [spriteBit] using hbit, hx, ?_⟩
      rw [hy]
      congr 1
      omega
  · rintro (⟨rfl, c, hc, hbit, hx⟩ | ⟨r, c, hr, hc, hbit, hx, hy⟩)
    · exact ⟨0, c, by simp, hc, by simpa [spriteBit] using hbit, hx, by simp⟩
    · refine ⟨r + 1, c, by simpa using hr, hc, by simpa [spriteBit] using hbit, hx, ?_⟩
      rw [hy]
      congr 1
      omega

/-- Rows of a sprite no higher than the screen land on distinct screen rows (R172 e). -/
theorem rowImage_not_spriteImage (row : Byte) (rest : List Byte) (x0 y0 : Nat) (qx : Fin 64) (qy : Fin 32)
    (hn : rest.length < 32) (h : rowImage row x0 (Fin.ofNat 32 y0) qx qy) : ¬ spriteImage rest x0 (y0 + 1) qx qy := by
  rintro ⟨r, c, hr, -, -, -, hy⟩
  have h1 := congrArg Fin.val h.1
  simp only [Fin.val_ofNat] at h1
  omega

/-- The draw engine exclusive-ors the wrapped image and collides exactly on image pixels that were set
(R172, R173). -/
theorem blitRows_spec (rows : List Byte) (acc : Framebuffer × Bool) (x0 y0 r : Nat) (hn : rows.length ≤ 32) :
    (∀ qx qy, spriteImage rows x0 (y0 + r) qx qy →
      (blitRows acc x0 y0 r rows).1.pixel qx qy = !acc.1.pixel qx qy) ∧
    (∀ qx qy, ¬ spriteImage rows x0 (y0 + r) qx qy →
      (blitRows acc x0 y0 r rows).1.pixel qx qy = acc.1.pixel qx qy) ∧
    ((blitRows acc x0 y0 r rows).2 = true ↔
      acc.2 = true ∨ ∃ qx qy, spriteImage rows x0 (y0 + r) qx qy ∧ acc.1.pixel qx qy = true) := by
  induction rows generalizing acc r with
  | nil => simp [blitRows, spriteImage_nil]
  | cons row rest ih =>
    simp only [List.length_cons] at hn
    obtain ⟨a1, a2, a3⟩ := blitRow_spec acc x0 (Fin.ofNat 32 (y0 + r)) row
    obtain ⟨b1, b2, b3⟩ := ih (blitRow acc x0 (Fin.ofNat 32 (y0 + r)) row) (r + 1) (by omega)
    rw [← Nat.add_assoc] at b1 b2 b3
    simp only [blitRows]
    refine ⟨?_, ?_, ?_⟩
    · intro qx qy h
      rcases (spriteImage_cons _ _ _ _ _ _).mp h with h | h
      · rw [b2 _ _ (rowImage_not_spriteImage _ _ _ _ _ _ (by omega) h), a1 _ _ h]
      · rw [b1 _ _ h, a2]
        exact fun h' => rowImage_not_spriteImage _ _ _ _ _ _ (by omega) h' h
    · intro qx qy h
      rw [spriteImage_cons, not_or] at h
      rw [b2 _ _ h.2, a2 _ _ h.1]
    · rw [b3, a3]
      constructor
      · rintro ((h | ⟨qx, qy, h, hp⟩) | ⟨qx, qy, h, hp⟩)
        · exact .inl h
        · exact .inr ⟨qx, qy, (spriteImage_cons _ _ _ _ _ _).mpr (.inl h), hp⟩
        · refine .inr ⟨qx, qy, (spriteImage_cons _ _ _ _ _ _).mpr (.inr h), ?_⟩
          rwa [a2] at hp
          exact fun h' => rowImage_not_spriteImage _ _ _ _ _ _ (by omega) h' h
      · rintro (h | ⟨qx, qy, h, hp⟩)
        · exact .inl (.inl h)
        · rcases (spriteImage_cons _ _ _ _ _ _).mp h with h | h
          · exact .inl (.inr ⟨qx, qy, h, hp⟩)
          · refine .inr ⟨qx, qy, h, ?_⟩
            rwa [a2]
            exact fun h' => rowImage_not_spriteImage _ _ _ _ _ _ (by omega) h' h

end Sys2Proof.Machine
end

