-- ==== Sys2Proof/Laws/Exec.lean ====
section
/-! SUPPORT. What the operations shared by the meanings can do: settling a fallible instruction, memory writes and
reads, the block of loaded registers, the write of a result and a flag. -/

namespace Sys2Proof.Machine

/-- An instruction that forms addresses either makes all its writes or halts with AddressRange (R66). -/
theorem settle_cases {s t : State} {r : Except Nat State} (h : s.settle r = .next t) :
    r = .ok t ∨ ((∃ e, r = .error e) ∧ t = s.raise .addressRange) := by
  cases r with
  | ok u =>
    simp only [State.settle, Host.Outcome.next.injEq] at h
    exact .inl (h ▸ rfl)
  | error e =>
    simp only [State.settle, Host.Outcome.next.injEq] at h
    exact .inr ⟨⟨e, rfl⟩, h.symm⟩

theorem except_map_eq_ok {α β : Type} {r : Except Nat α} {f : α → β} {b : β} (h : r.map f = .ok b) :
    ∃ a, r = .ok a ∧ f a = b := by
  cases r with
  | ok a =>
    simp only [Except.map, Except.ok.injEq] at h
    exact ⟨a, rfl, h⟩
  | error e => simp [Except.map] at h

theorem except_map_eq_error {α β : Type} {r : Except Nat α} {f : α → β} {e : Nat} (h : r.map f = .error e) :
    r = .error e := by
  cases r with
  | ok a => simp [Except.map] at h
  | error e => simpa [Except.map] using h

/-- The fetch advance, as a value (R65, R121). -/
theorem advance_eq (s : State) :
    s.advance = { s with pc := pcValue s.cfg.addrPolicy (s.pc.toNat + 2) } := by
  simp only [State.advance, State.setPc, storedPc_eq_pcValue]

/-! ### Memory writes and reads -/

/-- A memory write changes memory alone, keeps its canonical form, and leaves every address it does not form as it
was. -/
theorem memWrite_frame {s t : State} {a : Nat} {bs : List Byte} (h : s.memWrite a bs = .ok t) :
    ∃ as m, formAddrs s.cfg.addrPolicy (span a bs.length) = .ok as ∧ t = { s with MEM := m } ∧
      (s.MEM.wf = true → m.wf = true) ∧ ∀ b, b ∉ as → m.read b = s.MEM.read b := by
  unfold State.memWrite at h
  split at h
  · rename_i as has
    cases h
    refine ⟨as, _, has, rfl, fun hw => Memory.writeAll_wf _ _ hw ?_, fun b hb => Memory.read_writeAll_of_ne _ _ _ ?_⟩
    · intro c hc
      have hm := (List.of_mem_zip (a := c.1) (b := c.2) hc).1
      rw [((formAddrs_eq_ok _ _ _).mp has).1, List.mem_map] at hm
      obtain ⟨x, -, hx⟩ := hm
      rw [← hx]
      exact Nat.mod_lt _ (by decide)
    · intro c hc hcb
      exact hb (hcb ▸ (List.of_mem_zip (a := c.1) (b := c.2) hc).1)
  · simp at h

/-- A memory read gives as many bytes as asked. -/
theorem memRead_length {s : State} {a n : Nat} {bs : List Byte} (h : s.memRead a n = .ok bs) : bs.length = n := by
  unfold State.memRead at h
  split at h
  · rename_i as has
    rw [((formAddrs_eq_ok _ _ _).mp has).1] at h
    cases h
    simp [length_span]
  · simp at h

/-! ### Registers -/

/-- Registers outside the loaded block keep their values (R165). -/
theorem loadInto_of_not (V : Vector Byte 16) (k : Nat) (bs : List Byte) (r : Reg) (hk : k + bs.length ≤ 16)
    (h : r.val < k ∨ k + bs.length ≤ r.val) : (loadInto V k bs)[r] = V[r] := by
  induction bs generalizing V k with
  | nil => rfl
  | cons b rest ih =>
    simp only [List.length_cons] at hk h
    rw [loadInto, ih _ _ (by omega) (by omega)]
    simp only [Fin.getElem_fin, Vector.getElem_set, Fin.val_ofNat]
    rw [if_neg]
    omega

/-- Register `k + j` of a block loaded from register `k` on holds byte `j` (R165). -/
theorem loadInto_of_mem (V : Vector Byte 16) (k : Nat) (bs : List Byte) (j : Nat) (hj : j < bs.length)
    (hk : k + bs.length ≤ 16) : (loadInto V k bs)[k + j]'(by omega) = bs[j] := by
  induction bs generalizing V k j with
  | nil => simp at hj
  | cons b rest ih =>
    simp only [List.length_cons] at hk hj
    rw [loadInto]
    cases j with
    | zero =>
      have h := loadInto_of_not (V.set (Fin.ofNat 16 k) b) (k + 1) rest ⟨k, by omega⟩ (by omega) (by simp)
      simp only [Fin.getElem_fin, Vector.getElem_set, Fin.val_ofNat] at h
      rw [if_pos (by omega)] at h
      exact h
    | succ j =>
      have h := ih (V.set (Fin.ofNat 16 k) b) (k + 1) j (by omega) (by omega)
      simp only [List.getElem_cons_succ, ← h]
      congr 1
      omega

theorem length_regsUpTo (s : State) (x : Reg) : (s.regsUpTo x).length = x.val + 1 := by
  simp [State.regsUpTo]

theorem getElem_regsUpTo (s : State) (x r : Reg) (h : r ≤ x) :
    (s.regsUpTo x)[r.val]'(by rw [length_regsUpTo]; exact Nat.lt_succ_of_le h) = s.getV r := by
  simp [State.regsUpTo, State.getV]

theorem mem_regRange (x r : Reg) : r ∈ regRange x ↔ r ≤ x := by simp [regRange]

/-- After a result and a flag are written, VF holds the flag, Vx the result when it is not VF (R23). -/
theorem State.getV_setVFlag (s : State) (x r : Reg) (v : Byte) (c : Bool) :
    (s.setVFlag x v c).getV r = if r = VF then flagByte c else if r = x then v else s.getV r := by
  rw [State.setVFlag, State.getV_setV, State.getV_setV]

/-! ### The key wait -/

/-- The key wait takes a pressed key below which no key is pressed (R184). -/
theorem leastPressed_eq_some (s : State) (k : Key) :
    s.leastPressed = some k ↔ s.KEY[k] = true ∧ ∀ j : Key, j < k → s.KEY[j] = false := by
  unfold State.leastPressed
  rw [List.find?_eq_some_iff_getElem]
  constructor
  · rintro ⟨hk, i, hi, rfl, hlt⟩
    refine ⟨hk, fun j hj => ?_⟩
    have := hlt j.val (by simpa [Fin.lt_def] using hj)
    simpa using this
  · rintro ⟨hk, hlt⟩
    refine ⟨hk, k.val, by simp, by simp, fun j hj => ?_⟩
    have hj16 : j < 16 := by omega
    simpa using hlt ⟨j, hj16⟩ hj

theorem leastPressed_eq_none (s : State) : s.leastPressed = none ↔ ∀ k : Key, s.KEY[k] = false := by
  simp [State.leastPressed]

/-! ### Decoding errors -/

/-- The decoder's only error on a word names that word (R106). -/
theorem decode_error_eq {w : Word} {e : DecodeError} (h : decode w = .error e) : e = .illegalWord w := by
  unfold decode decodeFamily8 decodeFamilyF at h
  repeat' split at h
  all_goals simp_all

end Sys2Proof.Machine
end

