-- ==== Sys2Proof/Laws/PerInstr.lean ====
section
/-! SUPPORT. The family of per-instruction statements named in LAWS.json: the leading nibble of an instruction's
word is the one its row of the opcode map has (R96). -/

namespace Sys2Proof

/-- The leading nibble of an instruction's row (R96). -/
def Instr.leadingNibble : Instr → Nat
  | .cls => 0x0 | .ret => 0x0 | .jp _ => 0x1 | .call _ => 0x2 | .seByte _ _ => 0x3 | .sneByte _ _ => 0x4
  | .seReg _ _ => 0x5 | .ldByte _ _ => 0x6 | .addByte _ _ => 0x7
  | .ldReg _ _ => 0x8 | .orReg _ _ => 0x8 | .andReg _ _ => 0x8 | .xorReg _ _ => 0x8 | .addReg _ _ => 0x8
  | .subReg _ _ => 0x8 | .shr _ _ => 0x8 | .subnReg _ _ => 0x8 | .shl _ _ => 0x8
  | .sneReg _ _ => 0x9 | .ldI _ => 0xA | .jpV0 _ => 0xB | .rnd _ _ => 0xC | .drw _ _ _ => 0xD
  | .skp _ => 0xE | .sknp _ => 0xE
  | .ldVxDt _ => 0xF | .ldDtVx _ => 0xF | .ldStVx _ => 0xF | .ldVxK _ => 0xF | .addI _ => 0xF | .ldF _ => 0xF
  | .ldB _ => 0xF | .storeRegs _ => 0xF | .loadRegs _ => 0xF

namespace Laws.LeadingNibble

/-- A well-formed instruction's word has the leading nibble of its row. -/
def Statement (i : Instr) : Prop := i.wellFormed = true → fieldOp (encode i) = i.leadingNibble

theorem cls : Statement .cls := fun _ => rfl
theorem ret : Statement .ret := fun _ => rfl
theorem jp (nnn : Addr12) : Statement (.jp nnn) := fun _ => (fields_formatA 0x1 nnn (by decide)).1
theorem call (nnn : Addr12) : Statement (.call nnn) := fun _ => (fields_formatA 0x2 nnn (by decide)).1
theorem seByte (x : Reg) (kk : Byte) : Statement (.seByte x kk) := fun _ => (fields_formatXK 0x3 x kk (by decide)).1
theorem seReg (x y : Reg) : Statement (.seReg x y) := fun _ => (fields_formatXYN 0x5 x y 0x0 (by decide) (by decide)).1
theorem sneByte (x : Reg) (kk : Byte) : Statement (.sneByte x kk) := fun _ => (fields_formatXK 0x4 x kk (by decide)).1
theorem sneReg (x y : Reg) : Statement (.sneReg x y) := fun _ => (fields_formatXYN 0x9 x y 0x0 (by decide) (by decide)).1
theorem ldByte (x : Reg) (kk : Byte) : Statement (.ldByte x kk) := fun _ => (fields_formatXK 0x6 x kk (by decide)).1
theorem ldReg (x y : Reg) : Statement (.ldReg x y) := fun _ => (fields_formatXYN 0x8 x y 0x0 (by decide) (by decide)).1
theorem addByte (x : Reg) (kk : Byte) : Statement (.addByte x kk) := fun _ => (fields_formatXK 0x7 x kk (by decide)).1
theorem addReg (x y : Reg) : Statement (.addReg x y) := fun _ => (fields_formatXYN 0x8 x y 0x4 (by decide) (by decide)).1
theorem orReg (x y : Reg) : Statement (.orReg x y) := fun _ => (fields_formatXYN 0x8 x y 0x1 (by decide) (by decide)).1
theorem andReg (x y : Reg) : Statement (.andReg x y) := fun _ => (fields_formatXYN 0x8 x y 0x2 (by decide) (by decide)).1
theorem xorReg (x y : Reg) : Statement (.xorReg x y) := fun _ => (fields_formatXYN 0x8 x y 0x3 (by decide) (by decide)).1
theorem subReg (x y : Reg) : Statement (.subReg x y) := fun _ => (fields_formatXYN 0x8 x y 0x5 (by decide) (by decide)).1
theorem subnReg (x y : Reg) : Statement (.subnReg x y) := fun _ => (fields_formatXYN 0x8 x y 0x7 (by decide) (by decide)).1
theorem shr (x y : Reg) : Statement (.shr x y) := fun _ => (fields_formatXYN 0x8 x y 0x6 (by decide) (by decide)).1
theorem shl (x y : Reg) : Statement (.shl x y) := fun _ => (fields_formatXYN 0x8 x y 0xE (by decide) (by decide)).1
theorem ldI (nnn : Addr12) : Statement (.ldI nnn) := fun _ => (fields_formatA 0xA nnn (by decide)).1
theorem jpV0 (nnn : Addr12) : Statement (.jpV0 nnn) := fun _ => (fields_formatA 0xB nnn (by decide)).1
theorem rnd (x : Reg) (kk : Byte) : Statement (.rnd x kk) := fun _ => (fields_formatXK 0xC x kk (by decide)).1
theorem drw (x y : Reg) (n : Nat) : Statement (.drw x y n) := fun h =>
  (fields_formatXYN 0xD x y n (by decide) (Nat.lt_succ_of_le (of_decide_eq_true h))).1
theorem skp (x : Reg) : Statement (.skp x) := fun _ => (fields_formatX 0xE x 0x9E (by decide) (by decide)).1
theorem sknp (x : Reg) : Statement (.sknp x) := fun _ => (fields_formatX 0xE x 0xA1 (by decide) (by decide)).1
theorem ldVxDt (x : Reg) : Statement (.ldVxDt x) := fun _ => (fields_formatX 0xF x 0x07 (by decide) (by decide)).1
theorem ldDtVx (x : Reg) : Statement (.ldDtVx x) := fun _ => (fields_formatX 0xF x 0x15 (by decide) (by decide)).1
theorem ldStVx (x : Reg) : Statement (.ldStVx x) := fun _ => (fields_formatX 0xF x 0x18 (by decide) (by decide)).1
theorem ldVxK (x : Reg) : Statement (.ldVxK x) := fun _ => (fields_formatX 0xF x 0x0A (by decide) (by decide)).1
theorem addI (x : Reg) : Statement (.addI x) := fun _ => (fields_formatX 0xF x 0x1E (by decide) (by decide)).1
theorem ldF (x : Reg) : Statement (.ldF x) := fun _ => (fields_formatX 0xF x 0x29 (by decide) (by decide)).1
theorem ldB (x : Reg) : Statement (.ldB x) := fun _ => (fields_formatX 0xF x 0x33 (by decide) (by decide)).1
theorem storeRegs (x : Reg) : Statement (.storeRegs x) := fun _ => (fields_formatX 0xF x 0x55 (by decide) (by decide)).1
theorem loadRegs (x : Reg) : Statement (.loadRegs x) := fun _ => (fields_formatX 0xF x 0x65 (by decide) (by decide)).1

end Laws.LeadingNibble

end Sys2Proof
end

