-- ==== Sys2Proof/Tests/Slice0.lean ====
section
/-! SUPPORT. The model's own tests. Expected values come from the vectors of spec/95_test_vectors.md (T, V and E
numbers), its decode vectors (Part 4), or the examples in the rules named. The witnesses at the end show a state and
operands that meet the hypotheses of each obligation that has some, one per clause at a boundary. -/

namespace Sys2Proof.Tests
open Sys2Proof Sys2Proof.Machine

/-! ### Helpers -/

/-- What a small step test looks at: the step of `s` with the word `w` placed where it fetches. -/
def after {α : Type} (s : State) (w : Nat) (look : State → α) : Option α :=
  match step (s.withFetchWord 16 w) with
  | .next t => some (look t)
  | .fault _ => none
  | .refused _ => none

/-- What that step reports. -/
def reported (s : State) (w : Nat) : Report := stepReport (s.withFetchWord 16 w)

/-- What executing `i` in `s` leaves. -/
def executed {α : Type} (i : Instr) (s : State) (look : State → α) : Option α :=
  match exec i s with
  | .next t => some (look t)
  | .fault _ => none
  | .refused _ => none

/-- Reset with two registers set. -/
def regs (x : Reg) (a : Byte) (y : Reg) (b : Byte) : State := (State.reset.setV x a).setV y b

/-- A machine with a configuration. -/
def fresh (shift incr jump : Bool) (p : AddrPolicy) : State := State.create ⟨shift, incr, jump, p⟩

/-- The default machine under the policy FAULT. -/
def faulty : State := fresh false false false .fault

/-- Reset with the key `k` down. -/
def keyDown (k : Key) : State := { State.reset with KEY := State.reset.KEY.set k true }

/-- The pixels set, `(column, row)`, in a window of the top left corner. -/
def corner (s : State) : List (Nat × Nat) :=
  (List.finRange 8).flatMap (fun y => (List.finRange 8).filterMap (fun x =>
    if s.FB.pixel (x.castLE (by decide)) (y.castLE (by decide)) then some (x.val, y.val) else none))

/-! ### Well-formedness: the one check, and a term it refuses -/

theorem test_wellFormed_refuses_sixteen_rows : (Instr.drw 0 0 16).wellFormed = false := by decide
theorem test_wellFormed_accepts_fifteen_rows : (Instr.drw 0 0 15).wellFormed = true := by decide

/-! ### Decoding: the words of Part 4, written out from the encodings -/

theorem test_decode_family_0 : decode 0x00E0 = .ok .cls ∧ decode 0x00EE = .ok .ret := by decide
theorem test_decode_jp : decode 0b0001101010111100 = .ok (.jp 0xABC) := by decide
theorem test_decode_call : decode 0b0010101010111100 = .ok (.call 0xABC) := by decide
theorem test_decode_seByte : decode 0b0011101001111111 = .ok (.seByte 0xA 0x7F) := by decide
theorem test_decode_sneByte : decode 0b0100101001111111 = .ok (.sneByte 0xA 0x7F) := by decide
theorem test_decode_seReg : decode 0b0101101010110000 = .ok (.seReg 0xA 0xB) := by decide
theorem test_decode_ldByte : decode 0b0110101000000010 = .ok (.ldByte 0xA 0x02) := by decide
theorem test_decode_addByte : decode 0b0111101000000101 = .ok (.addByte 0xA 0x05) := by decide
theorem test_decode_ldReg : decode 0b1000101010110000 = .ok (.ldReg 0xA 0xB) := by decide
theorem test_decode_orReg : decode 0b1000101010110001 = .ok (.orReg 0xA 0xB) := by decide
theorem test_decode_andReg : decode 0b1000101010110010 = .ok (.andReg 0xA 0xB) := by decide
theorem test_decode_xorReg : decode 0b1000101010110011 = .ok (.xorReg 0xA 0xB) := by decide
theorem test_decode_addReg : decode 0b1000101010110100 = .ok (.addReg 0xA 0xB) := by decide
theorem test_decode_subReg : decode 0b1000101010110101 = .ok (.subReg 0xA 0xB) := by decide
theorem test_decode_shr : decode 0b1000101010110110 = .ok (.shr 0xA 0xB) := by decide
theorem test_decode_subnReg : decode 0b1000101010110111 = .ok (.subnReg 0xA 0xB) := by decide
theorem test_decode_shl : decode 0b1000101010111110 = .ok (.shl 0xA 0xB) := by decide
theorem test_decode_sneReg : decode 0b1001101010110000 = .ok (.sneReg 0xA 0xB) := by decide
theorem test_decode_ldI : decode 0b1010101010111100 = .ok (.ldI 0xABC) := by decide
theorem test_decode_jpV0 : decode 0b1011101010111100 = .ok (.jpV0 0xABC) := by decide
theorem test_decode_rnd : decode 0b1100101001111111 = .ok (.rnd 0xA 0x7F) := by decide
theorem test_decode_drw : decode 0b1101101010110101 = .ok (.drw 0xA 0xB 5) := by decide
theorem test_decode_skp : decode 0b1110101010011110 = .ok (.skp 0xA) := by decide
theorem test_decode_sknp : decode 0b1110101010100001 = .ok (.sknp 0xA) := by decide
theorem test_decode_ldVxDt : decode 0b1111101000000111 = .ok (.ldVxDt 0xA) := by decide
theorem test_decode_ldVxK : decode 0b1111101000001010 = .ok (.ldVxK 0xA) := by decide
theorem test_decode_ldDtVx : decode 0b1111101000010101 = .ok (.ldDtVx 0xA) := by decide
theorem test_decode_ldStVx : decode 0b1111101000011000 = .ok (.ldStVx 0xA) := by decide
theorem test_decode_addI : decode 0b1111101000011110 = .ok (.addI 0xA) := by decide
theorem test_decode_ldF : decode 0b1111101000101001 = .ok (.ldF 0xA) := by decide
theorem test_decode_ldB : decode 0b1111101000110011 = .ok (.ldB 0xA) := by decide
theorem test_decode_storeRegs : decode 0b1111101001010101 = .ok (.storeRegs 0xA) := by decide
theorem test_decode_loadRegs : decode 0b1111101001100101 = .ok (.loadRegs 0xA) := by decide

/-- The illegal words of Part 4. -/
theorem test_decode_illegal :
    [0x0000, 0x0123, 0x00E1, 0x00EF, 0x01E0, 0x0FFF, 0x5AB1, 0x5ABF, 0x9AB1, 0x9ABF, 0x8AB8, 0x8AB9, 0x8ABA,
      0x8ABB, 0x8ABC, 0x8ABD, 0x8ABF, 0xEA00, 0xEA9D, 0xEA9F, 0xEAA0, 0xEAA2, 0xEAFF, 0xFA00, 0xFA06, 0xFA08,
      0xFA0B, 0xFA14, 0xFA16, 0xFA1D, 0xFA1F, 0xFA28, 0xFA30, 0xFA34, 0xFA54, 0xFA56, 0xFA64, 0xFA66, 0xFA75,
      0xFA85, 0xFAFF].all (fun w => decode w == .error (.illegalWord w)) = true := by decide

theorem test_decodeBytes_refuses_one_byte : decodeBytes [0x60] = .error .tooFewBytes := by decide
theorem test_decodeTableWord_reads_6A02 : decodeTableWord 16 0x6A02 = some (.ldByte 0xA 0x02) := by decide

/-! ### The step: fetch, byte order, decode failures, halted -/

theorem test_V1_fetch_is_big_endian : after State.reset 0x1234 (·.pc) = some 0x234 := by decide
theorem test_V2_advance_wraps :
    after { State.reset with pc := 0xFFE } 0x6A02 (fun t => (t.getV 0xA, t.pc)) = some (0x02, 0x000) := by decide
theorem test_V3_advance_kept_under_fault :
    after { faulty with pc := 0xFFE } 0x6A02 (fun t => (t.getV 0xA, t.pc)) = some (0x02, 0x1000) := by decide
theorem test_V4_fetch_fault :
    after { faulty with pc := 0x1000 } 0x6A02 (fun t => (t.pc, t.halted)) = some (0x1000, some .addressRange) := by
  decide
theorem test_V5_fetch_wraps :
    after { State.reset with pc := 0xFFF } 0x6A02 (fun t => (t.getV 0xA, t.pc)) = some (0x02, 0x001) := by decide
theorem test_V8_zero_word_is_skipped :
    after State.reset 0x0000 (fun t => (t.pc, t.halted)) = some (0x202, none) ∧
    reported State.reset 0x0000 = .decodeFailure 0x0000 0x200 := by decide
theorem test_V22_halted_wins :
    after { State.reset with stack := List.replicate 16 0x0202, halted := some .stackOverflow } 0x00EE
      (fun t => (t.pc, t.sp)) = some (0x200, 16) := by decide

/-! ### Control flow -/

theorem test_V30_ret :
    after { State.reset with pc := 0x300, stack := [0x0202] } 0x00EE (fun t => (t.pc, t.stack)) =
      some (0x202, []) := by decide
theorem test_V31_ret_underflow :
    after { State.reset with pc := 0x300 } 0x00EE (fun t => (t.pc, t.halted)) =
      some (0x302, some .stackUnderflow) := by decide
theorem test_V33_jp : after State.reset 0x12A0 (·.pc) = some 0x2A0 := by decide
theorem test_V36_call : after State.reset 0x2300 (fun t => (t.pc, t.stack)) = some (0x300, [0x0202]) := by decide
theorem test_V38_call_overflow :
    after { State.reset with stack := List.replicate 16 0x0ABC } 0x2300 (fun t => (t.pc, t.sp, t.halted)) =
      some (0x202, 16, some .stackOverflow) := by decide
theorem test_V41_V42_seByte :
    after (regs 3 0x42 4 0) 0x3342 (·.pc) = some 0x204 ∧ after (regs 3 0x41 4 0) 0x3342 (·.pc) = some 0x202 := by
  decide
theorem test_V44_skip_wraps : after { State.reset with pc := 0xFFC } 0x3000 (·.pc) = some 0x000 := by decide
theorem test_V46_V47_sneByte :
    after (regs 3 0x41 4 0) 0x4342 (·.pc) = some 0x204 ∧ after (regs 3 0x42 4 0) 0x4342 (·.pc) = some 0x202 := by
  decide
theorem test_V48_V49_seReg :
    after (regs 1 7 2 7) 0x5120 (·.pc) = some 0x204 ∧ after (regs 1 7 2 8) 0x5120 (·.pc) = some 0x202 := by decide
theorem test_V51_V52_sneReg :
    after (regs 1 7 2 8) 0x9120 (·.pc) = some 0x204 ∧ after (regs 1 7 2 7) 0x9120 (·.pc) = some 0x202 := by decide
theorem test_V55_jpV0_wraps : after (regs 0 2 1 0) 0xBFFF (·.pc) = some 0x001 := by decide
theorem test_V58_jpV0_quirk :
    after (((fresh false false true .wrap).setV 0 1).setV 2 0x10) 0xB234 (·.pc) = some 0x244 := by decide

/-! ### Registers and arithmetic -/

theorem test_V71_ldByte_to_VF : after State.reset 0x6FFF (fun t => (t.getV VF, t.pc)) = some (0xFF, 0x202) := by decide
theorem test_V72_ldReg : after (regs 1 0 2 0x5C) 0x8120 (·.getV 1) = some 0x5C := by decide
theorem test_V75_addByte_no_flag :
    after (regs 0xA 0x02 VF 0) 0x7AFF (fun t => (t.getV 0xA, t.getV VF)) = some (0x01, 0x00) := by decide
theorem test_V77_addReg_carry :
    after (regs 1 0xFF 2 0x01) 0x8124 (fun t => (t.getV 1, t.getV VF)) = some (0x00, 0x01) := by decide
theorem test_V82_addReg_flag_last : after (regs VF 0x10 1 0x20) 0x8F14 (·.getV VF) = some 0x00 := by decide
theorem test_V86_orReg : after (regs 1 0xF0 2 0x0F) 0x8121 (·.getV 1) = some 0xFF := by decide
theorem test_V87_andReg : after (regs 1 0xF3 2 0x3F) 0x8122 (·.getV 1) = some 0x33 := by decide
theorem test_V88_xorReg : after (regs 1 0xFF 2 0x0F) 0x8123 (·.getV 1) = some 0xF0 := by decide
theorem test_V91_subReg_borrow :
    after (regs 1 0x03 2 0x05) 0x8125 (fun t => (t.getV 1, t.getV VF)) = some (0xFE, 0x00) := by decide
theorem test_V92_subReg_equal :
    after (regs 1 0x07 2 0x07) 0x8125 (fun t => (t.getV 1, t.getV VF)) = some (0x00, 0x01) := by decide
theorem test_V99_subnReg_borrow :
    after (regs 1 0x05 2 0x03) 0x8127 (fun t => (t.getV 1, t.getV VF)) = some (0xFE, 0x00) := by decide
theorem test_V105_shr_ignores_y :
    after (regs 1 0xAA 2 0x05) 0x8126 (fun t => (t.getV 1, t.getV VF)) = some (0x55, 0x00) := by decide
theorem test_V106_shr_quirk :
    after (((fresh true false false .wrap).setV 1 0xAA).setV 2 0x05) 0x8126
      (fun t => (t.getV 1, t.getV 2, t.getV VF)) = some (0x02, 0x05, 0x01) := by decide
theorem test_V110_shl : after (regs 1 0x81 2 0) 0x810E (fun t => (t.getV 1, t.getV VF)) = some (0x02, 0x01) := by
  decide
theorem test_V113_shl_quirk :
    after (((fresh true false false .wrap).setV 1 0x01).setV 2 0xC0) 0x812E
      (fun t => (t.getV 1, t.getV 2, t.getV VF)) = some (0x80, 0xC0, 0x01) := by decide
/-- V117: whatever byte is drawn, a mask of 0 gives 0. -/
theorem test_V117_rnd_mask_zero : executed (.rnd 1 0x00) (regs 1 0x55 2 0) (·.getV 1) = some 0x00 := by
  simp [executed, exec, execRnd, State.getV_setV]

/-! ### Index register and memory -/

theorem test_V131_ldI : after State.reset 0xAFFF (·.I) = some 0xFFF := by decide
theorem test_V136_addI_mod_under_fault : after ({ faulty with I := 0xFFF }.setV 2 1) 0xF21E (·.I) = some 0x000 := by
  decide
theorem test_V141_ldF_high_nibble : after (regs 3 0x1A 4 0) 0xF329 (·.I) = some 0x082 := by decide
theorem test_V146_storeRegs_wraps :
    after { regs 0 0xAA 1 0xBB with I := 0xFFF } 0xF155 (fun t => (t.readByte 0xFFF, t.readByte 0x000, t.I)) =
      some (0xAA, 0xBB, 0xFFF) := by decide
theorem test_V148_storeRegs_quirk :
    after { ((fresh false true false .wrap).setV 0 0xAA).setV 1 0xBB with I := 0xFFF } 0xF155
      (fun t => (t.readByte 0x000, t.I)) = some (0xBB, 0x001) := by decide
theorem test_V153_loadRegs :
    after ({ regs 2 0x99 3 0 with I := 0x300 }.writeCells [(0x300, 0xAB), (0x301, 0xCD), (0x302, 0xEF)]) 0xF165
      (fun t => (t.getV 0, t.getV 1, t.getV 2)) = some (0xAB, 0xCD, 0x99) := by decide
theorem test_V157_loadRegs_font : after { State.reset with I := 0x050 } 0xF065 (·.getV 0) = some 0xF0 := by decide
theorem test_V158_ldB :
    after { regs 4 0xFF 5 0 with I := 0x300 } 0xF433
      (fun t => (t.readByte 0x300, t.readByte 0x301, t.readByte 0x302)) = some (2, 5, 5) := by decide
theorem test_V164_ldB_fault :
    after ({ faulty with I := 0xFFE }.setV 4 0x9C) 0xF433 (fun t => (t.readByte 0xFFE, t.pc, t.halted)) =
      some (0, 0x202, some .addressRange) := by decide

/-! ### Display -/

theorem test_V170_cls :
    after ({ State.reset with FB := State.reset.FB.toggle 5 7 }.setV VF 1) 0x00E0 (fun t => (corner t, t.getV VF)) =
      some ([], 1) := by decide
theorem test_V184_drw_old_VF_is_column :
    after ({ regs VF 0x05 1 0x02 with I := 0x300 }.writeCells [(0x300, 0x80)]) 0xDF11
      (fun t => (corner t, t.getV VF)) = some ([(5, 2)], 0) := by decide
theorem test_V181_drw_collision :
    after ({ State.reset with I := 0x300, FB := State.reset.FB.toggle 1 0 }.writeCells [(0x300, 0xC0)]) 0xD011
      (fun t => (corner t, t.getV VF)) = some ([(0, 0)], 1) := by decide

/-! ### Keypad and timers -/

theorem test_V202_skp_high_nibble : after ((keyDown 0xA).setV 1 0x1A) 0xE19E (·.pc) = some 0x204 := by decide
theorem test_V201_skp : after (regs 1 0x05 2 0) 0xE19E (·.pc) = some 0x202 := by decide
theorem test_V204_V205_sknp :
    after (regs 1 0x05 2 0) 0xE1A1 (·.pc) = some 0x204 ∧ after ((keyDown 5).setV 1 0x05) 0xE1A1 (·.pc) = some 0x202 := by
  decide
theorem test_V207_ldVxDt : after { State.reset with DT := 0x2A } 0xF307 (·.getV 3) = some 0x2A := by decide
theorem test_V209_ldDtVx : after (regs 3 0x3C 4 0) 0xF315 (·.DT) = some 0x3C := by decide
theorem test_V211_ldStVx : after (regs 4 0x05 5 0) 0xF418 (fun t => (t.ST, t.DT)) = some (0x05, 0) := by decide
theorem test_V214_ldVxK_least :
    after { keyDown 9 with KEY := (keyDown 9).KEY.set 3 true } 0xF20A (fun t => (t.getV 2, t.pc)) =
      some (0x03, 0x202) := by decide
theorem test_V219_ldVxK_stall : after { State.reset with pc := 0xFFF } 0xF20A (·.pc) = some 0xFFF := by decide

/-! ### Events -/

theorem test_E3_tick :
    (fun t => (t.DT, t.ST)) (Event.tick.apply { State.reset with DT := 0xFF, ST := 0x02 }) = (0xFE, 0x01) := by decide
theorem test_E2_tick_floor : (Event.tick.apply State.reset).DT = 0 := by decide
theorem test_E8_setKey_refused : (Event.setKey 16 true).report State.reset = .keyRefused := by decide
theorem test_E12_load_keeps_the_rest :
    (fun t => (t.readByte 0x200, t.readByte 0x201))
      ((Event.load [0x12]).apply ((Event.load [0x6A, 0x02]).apply State.reset)) = (0x12, 0x02) := by decide
theorem test_E13_snapshot :
    (Event.snapshot).report { State.reset with FB := State.reset.FB.toggle 3 4 } =
      .pixels (State.reset.FB.toggle 3 4) := rfl
/-- T12: the document's two-instruction ROM, loaded and stepped twice. -/
theorem test_T12_two_steps :
    (fun t => (t.getV 0xA, t.pc)) (runEvents [.load [0x6A, 0x02, 0x7A, 0x05], .step, .step] State.reset) =
      (0x07, 0x204) := by decide

/-! ### Witnesses: encoding -/

theorem test_witness_DecodingAnEncodedInstructionGivesItBack : (Instr.drw 15 15 15).wellFormed = true := by decide
theorem test_witness_ADecodedWordIsTheEncodingOfItsInstruction : decode 0xDFFF = .ok (.drw 15 15 15) := by decide
theorem test_witness_DecodingFollowsMatchAndMask :
    opcodeRows[33]? = some (0xF065, 0xF0FF) ∧ (0xFF65 : Word) &&& 0xF0FF = 0xF065 ∧
    decode 0xFF65 = .ok (.loadRegs 15) ∧ (Instr.loadRegs 15).row = 33 := by decide

/-! ### Witnesses: the step -/

/-- A running machine about to run one word. -/
def holding (s : State) (w : Nat) : State := s.withFetchWord 16 w

/-- Under WRAP at the last address, under FAULT at the last address a fetch succeeds from. -/
theorem test_witness_StepRunsTheDecodedInstruction :
    (holding { State.reset with pc := 0xFFF } 0x6A02).halted = none ∧
    decodeBytes [(holding { State.reset with pc := 0xFFF } 0x6A02).readByte 0xFFF,
      (holding { State.reset with pc := 0xFFF } 0x6A02).readByte 0x000] = .ok (.ldByte 0xA 0x02, []) ∧
    (holding { faulty with pc := 0xFFE } 0x6A02).pc.toNat ≤ 0xFFE ∧
    decodeBytes [(holding { faulty with pc := 0xFFE } 0x6A02).readByte 0xFFE,
      (holding { faulty with pc := 0xFFE } 0x6A02).readByte 0xFFF] = .ok (.ldByte 0xA 0x02, []) := by decide
theorem test_witness_FetchIsBigEndian :
    formAddr .fault 0xFFE = .ok 0xFFE ∧ formAddr .fault 0xFFF = .ok 0xFFF ∧
    (holding { faulty with pc := 0xFFE } 0x1234).fetch = .ok 0x1234 := by decide
theorem test_witness_IllegalWordIsReportedAndSkipped :
    State.reset.halted = none ∧ State.reset.fetch = .ok 0x0000 ∧ decode 0x0000 = .error (.illegalWord 0x0000) := by
  decide
theorem test_witness_StepWhileHaltedChangesNothing :
    (State.reset.raise .stackUnderflow).halted = some .stackUnderflow := by decide
theorem test_witness_FetchBeyondMemoryHaltsUnderFault :
    ({ faulty with pc := 0xFFF } : State).halted = none ∧ ({ faulty with pc := 0xFFF } : State).cfg.addrPolicy = .fault ∧
    0xFFE < ({ faulty with pc := 0xFFF } : State).pc.toNat := by decide
theorem test_witness_EveryEventKeepsTheInvariant : State.reset.Inv :=
  ⟨by decide, by decide, by decide, fun _ he => (by cases he), rfl, fun _ => (by decide)⟩
theorem test_witness_StepKeepsTheInvariant :
    State.reset.Inv ∧ step State.reset = .next { State.reset with pc := 0x202 } :=
  ⟨test_witness_EveryEventKeepsTheInvariant, rfl⟩
theorem test_witness_StepLeavesKeysConfigurationAndTimers :
    after (regs 3 0x3C 4 0) 0xF315 (·.DT ≠ State.reset.DT) = some True ∧
    after (regs 3 0x3C 4 0) 0xF318 (·.ST ≠ State.reset.ST) = some True := by
  constructor <;> exact congrArg some (propext ⟨fun _ => trivial, fun _ => by decide⟩)
theorem test_witness_OnlyStoresWriteMemoryAndOnlyDrawsWritePixels :
    after { regs 0 0xAA 1 0 with I := 0x300 } 0xF055 (·.readByte 0x300) = some 0xAA ∧
    after { regs 0 0xAA 1 0 with I := 0x300 } 0xF033 (·.readByte 0x300) = some 1 ∧
    after { State.reset with FB := State.reset.FB.toggle 0 0 } 0x00E0 corner = some [] ∧
    after { State.reset with I := 0x050 } 0xD011 corner = some [(0, 0), (1, 0), (2, 0), (3, 0)] := by decide
theorem test_witness_WrapMachineFollowsFaultMachine :
    (holding { faulty with pc := 0xFFE } 0x2300).cfg.addrPolicy = .fault ∧
    after { faulty with pc := 0xFFE } 0x2300 (fun t => (t.stack, t.halted)) = some ([0x1000], none) := by decide
theorem test_witness_WrapNeverRaisesAddressRange :
    State.reset.cfg.addrPolicy = .wrap ∧ State.reset.halted ≠ some .addressRange ∧
    step State.reset = .next { State.reset with pc := 0x202 } := ⟨rfl, by decide, rfl⟩
/-- A running machine halts with each cause: an empty stack, a full one, an address out of range, a fetch out of
range. -/
theorem test_witness_AStepHaltsOnlyForItsFatalErrors :
    after State.reset 0x00EE (·.halted) = some (some .stackUnderflow) ∧
    after { State.reset with stack := List.replicate 16 0 } 0x2300 (·.halted) = some (some .stackOverflow) ∧
    after { faulty with I := 0xFFF } 0xF155 (·.halted) = some (some .addressRange) ∧
    after { faulty with pc := 0xFFF } 0x6A02 (·.halted) = some (some .addressRange) := by decide
theorem test_witness_FatalErrorsArePrecise :
    (holding State.reset 0x00EE).halted = none ∧ (holding State.reset 0x00EE).fetch = .ok 0x00EE ∧
    after State.reset 0x00EE (·.halted) = some (some .stackUnderflow) ∧
    ({ faulty with pc := 0xFFF } : State).fetch = .error 0xFFF ∧
    step { faulty with pc := 0xFFF } = .next { faulty with pc := 0xFFF, halted := some .addressRange } :=
  ⟨by decide, by decide, by decide, by decide, rfl⟩
/-- Each kind of report is given. -/
theorem test_witness_ReportAgreesWithTheStep :
    reported State.reset 0x6A02 = .ok ∧ reported State.reset 0x0123 = .decodeFailure 0x0123 0x200 ∧
    reported State.reset 0x00EE = .fatal .stackUnderflow none ∧
    reported { faulty with I := 0xFFE } 0xF333 = .fatal .addressRange (some 0x1000) ∧
    reported { faulty with pc := 0xFFF } 0x6A02 = .fatal .addressRange (some 0xFFF) ∧
    reported { State.reset with halted := some .stackOverflow } 0x6A02 = .halted .stackOverflow := by decide
theorem test_witness_EveryInstructionStaysInItsFootprint :
    exec .cls State.reset = .next { State.reset with FB := Framebuffer.blank } ∧
    executed (.storeRegs 1) (({ State.reset with I := 0xFFF } : State).setV 1 0xBB) (·.readByte 0x000) = some 0xBB ∧
    (footprint (.storeRegs 1) { State.reset with I := 0xFFF }).stores = [0xFFF, 0x000] :=
  ⟨rfl, by decide, by decide⟩
/-- An instruction that draws no byte, and RND. -/
theorem test_witness_TheDrawCounterShowsOnlyInTheByteOfRND :
    exec .cls State.reset = .next { State.reset with FB := Framebuffer.blank } ∧
    executed (.rnd 3 0x0F) { State.reset with draws := 7 } (fun t => (t.draws, t.getV 4)) = some (8, 0) :=
  ⟨rfl, rfl⟩

/-! ### Witnesses: control flow -/

theorem test_witness_CallPushesThePcOrOverflows :
    ({ State.reset with stack := List.replicate 15 0 } : State).sp < 16 ∧
    16 ≤ ({ State.reset with stack := List.replicate 16 0 } : State).sp := by decide
theorem test_witness_ReturnPopsThePcOrUnderflows :
    ({ State.reset with stack := [0x0FFF] } : State).stack = 0x0FFF :: [] ∧ State.reset.stack = [] := by decide
theorem test_witness_CallThenReturnComesBack :
    (holding (State.reset.writeCells [(0x300, 0x00), (0x301, 0xEE)]) 0x2300).halted = none ∧
    (holding (State.reset.writeCells [(0x300, 0x00), (0x301, 0xEE)]) 0x2300).sp < 16 ∧
    (holding (State.reset.writeCells [(0x300, 0x00), (0x301, 0xEE)]) 0x2300).fetch = .ok (encode (.call 0x300)) ∧
    after (State.reset.writeCells [(0x300, 0x00), (0x301, 0xEE)]) 0x2300 (·.fetch) = some (.ok (encode .ret)) := by
  decide
/-- The register is V0 with the quirk off, Vx with it on; under FAULT the sum 0x1000 is out of range, 0xFFF is not. -/
theorem test_witness_JumpWithOffsetAddsTheRegister :
    executed (.jpV0 0xFFF) (faulty.setV 0 1) (·.halted) = some (some .addressRange) ∧
    executed (.jpV0 0xFFE) (faulty.setV 0 1) (·.pc) = some 0xFFF ∧
    executed (.jpV0 0x234) (((fresh false false true .wrap).setV 0 1).setV 2 0x10) (·.pc) = some 0x244 := by decide

/-! ### Witnesses: arithmetic, index register and memory -/

theorem test_witness_AddImmediateWrapsWithoutFlag : (0xA : Reg) ≠ VF := by decide
theorem test_witness_ShiftsWriteTheBitShiftedOutLast :
    (regs 1 0xAA 2 0x05).shiftOperand 1 2 = 0xAA ∧
    (((fresh true false false .wrap).setV 1 0xAA).setV 2 0x05).shiftOperand 1 2 = 0x05 := by decide
theorem test_witness_FlagWritersLeaveZeroOrOneInVF :
    (Instr.drw 0 1 2).writesFlag = true ∧
    executed (.drw 0 1 2) { State.reset with I := 0xFFF } (·.getV VF) = some 0 ∧
    ¬ AccessFits { faulty with I := 0xFFF } 2 ∧
    executed (.drw 0 1 2) { faulty with I := 0xFFF } (·.halted) = some (some .addressRange) := by decide
theorem test_witness_StoreRegistersWritesV0ToVx :
    AccessFits { State.reset with I := 0xFFF } (15 + 1) ∧ AccessFits { faulty with I := 0xFF0 } (15 + 1) ∧
    AccessFits { faulty with I := 0xFFF } (0 + 1) ∧ ¬ AccessFits { faulty with I := 0xFF1 } (15 + 1) := by decide
theorem test_witness_LoadRegistersReadsV0ToVx :
    AccessFits { State.reset with I := 0xFFF } (15 + 1) ∧ AccessFits { faulty with I := 0xFF0 } (15 + 1) ∧
    AccessFits { faulty with I := 0xFFF } (0 + 1) ∧ ¬ AccessFits { faulty with I := 0xFFF } (1 + 1) := by decide
theorem test_witness_DecimalDigitsAreStored :
    AccessFits { State.reset with I := 0xFFE } 3 ∧ AccessFits { faulty with I := 0xFFD } 3 ∧
    ¬ AccessFits { faulty with I := 0xFFE } 3 := by decide
theorem test_witness_StoredRegistersLoadBack :
    (regs 0 0xAA 1 0xBB).cfg.memoryIncrementQuirk = false ∧ AccessFits (regs 0 0xAA 1 0xBB) 2 ∧
    executed (.storeRegs 1) (regs 0 0xAA 1 0xBB) (fun t =>
      executed (.loadRegs 1) ((t.setV 0 0).setV 1 0) (fun v => (v.getV 0, v.getV 1))) =
      some (some (0xAA, 0xBB)) := by decide
/-- Under WRAP `pc` points at the first stored byte; under FAULT, at the last address a fetch is in range from, at the
second digit of 254, whose third digit is the low byte. -/
theorem test_witness_AStoredWordIsFetchedNext :
    AccessFits { regs 0 0x12 1 0x06 with I := 0x202, pc := 0x202 } (1 + 1) ∧
    executed (.storeRegs 1) { regs 0 0x12 1 0x06 with I := 0x202, pc := 0x202 } (fun t => (t.pc.toNat % 4096, t.fetch)) =
      some (byteAddr { regs 0 0x12 1 0x06 with I := 0x202, pc := 0x202 } 0, .ok 0x1206) ∧
    AccessFits { faulty.setV 4 0xFE with I := 0xFFD, pc := 0xFFE } 3 ∧
    executed (.ldB 4) { faulty.setV 4 0xFE with I := 0xFFD, pc := 0xFFE } (fun t => (t.pc.toNat, t.fetch)) =
      some (0xFFE, .ok 0x0504) ∧
    byteAddr { faulty.setV 4 0xFE with I := 0xFFD, pc := 0xFFE } 1 = 0xFFE := by decide

/-! ### Witnesses: display, keypad, events -/

theorem test_witness_DrawXorsTheWrappedImage :
    AccessFits { State.reset with I := 0xFFF } 15 ∧ AccessFits { faulty with I := 0xFFF } 0 ∧
    AccessFits { faulty with I := 0xFFF } 1 ∧ ¬ AccessFits { faulty with I := 0xFFF } 2 := by decide
/-- V176 and V177: in the image is the pixel the sprite's bit lands on, bit 7 in column 0 and bit 0 in column 7. -/
theorem test_witness_DrawXorsTheWrappedImage_pixels :
    spriteImage [0x80] 60 31 60 31 ∧ spriteImage [0x01] 60 31 3 31 ∧ ¬ spriteImage [0x80] 60 31 61 31 := by
  refine ⟨⟨0, 0, by decide, by decide, by decide, by decide, by decide⟩,
    ⟨0, 7, by decide, by decide, by decide, by decide, by decide⟩, ?_⟩
  rintro ⟨r, c, hr, hc, hbit, hx, -⟩
  simp only [List.length_singleton, Nat.lt_one_iff] at hr
  subst hr
  have h1 : c = 1 := by
    have : ((61 : Fin 64) : Nat) = 61 := rfl
    omega
  subst h1
  exact absurd hbit (by decide)
/-- V172, V173: the document's own example. -/
theorem test_witness_DrawingTwiceRestoresTheFramebuffer :
    (0 : Reg) ≠ VF ∧ (1 : Reg) ≠ VF ∧ AccessFits { State.reset with I := 0x050 } 1 ∧
    executed (.drw 0 1 1) { State.reset with I := 0x050 } (fun t =>
      (t.getV VF, executed (.drw 0 1 1) t (fun u => (u.getV VF, corner u)))) = some (0, some (1, [])) := by decide
theorem test_witness_KeySkipsTestTheSelectedKey :
    (15 : Key).val = ((State.reset.setV 1 0xFF).getV 1 &&& 0x0F).toNat ∧ (keyDown 15).KEY[(15 : Key)] = true ∧
    State.reset.KEY[(15 : Key)] = false := by decide
theorem test_witness_KeyWaitTakesTheLeastPressedKey :
    (keyDown 0).KEY[(0 : Key)] = true ∧ (∀ j : Key, j < 0 → (keyDown 0).KEY[j] = false) ∧
    (keyDown 15).KEY[(15 : Key)] = true ∧ (∀ j : Key, j < 15 → (keyDown 15).KEY[j] = false) := by decide
theorem test_witness_KeyWaitStallChangesNothing :
    (holding { State.reset with pc := 0xFFF } 0xFF0A).halted = none ∧
    (holding { State.reset with pc := 0xFFF } 0xFF0A).pc.toNat ≤ pcBound .wrap ∧
    (holding { State.reset with pc := 0xFFF } 0xFF0A).fetch = .ok (encode (.ldVxK 15)) ∧
    (∀ k : Key, (holding { State.reset with pc := 0xFFF } 0xFF0A).KEY[k] = false) := by decide
theorem test_witness_TickCountsBothTimersDown :
    State.reset.DT = 0 ∧ ({ State.reset with DT := 1, ST := 0xFF } : State).DT ≠ 0 ∧
    ({ State.reset with DT := 1, ST := 0xFF } : State).ST ≠ 0 := by decide
/-- The bounds of a key index: 15 is one, 16 is refused. -/
theorem test_witness_SetKeyChangesOneFlag :
    (Event.setKey 15 true).report State.reset = .done ∧ (Event.setKey 16 true).report State.reset = .keyRefused := by
  decide
/-- The bounds of an image: 3584 bytes fit, 3585 do not (E9, E10). -/
theorem test_witness_LoadCopiesTheImageOrRefusesIt :
    (List.replicate 3584 (0xAB : Byte)).length ≤ 3584 ∧ 3584 < (List.replicate 3585 (0xAB : Byte)).length := by
  rw [List.length_replicate, List.length_replicate]
  decide
theorem test_witness_CreationMemoryHoldsZerosAndTheFont :
    State.reset.readByte 0x04F = 0 ∧ State.reset.readByte 0x050 = 0xF0 ∧ State.reset.readByte 0x09F = 0x80 ∧
    State.reset.readByte 0x0A0 = 0 := by decide

end Sys2Proof.Tests
end

section
/-! SUPPORT. Memory (20_memory.md): the word that fetch forms. -/

namespace Sys2Proof.Machine

/-- Where `Addr` gives both byte addresses, the bytes at them are the word fetched (R67). -/
theorem fetch_of_formAddr {s : State} {a0 a1 : Nat} (h0 : formAddr s.cfg.addrPolicy s.pc.toNat = .ok a0)
    (h1 : formAddr s.cfg.addrPolicy (s.pc.toNat + 1) = .ok a1) :
    s.fetch = .ok (wordOfBytes (s.readByte a0) (s.readByte a1)) := by
  obtain ⟨rfl, -⟩ := (formAddr_eq_ok _ _ _).mp h0
  obtain ⟨rfl, hrange⟩ := (formAddr_eq_ok _ _ _).mp h1
  exact (fetch_eq_ok _ _).mpr ⟨hrange.imp_right Nat.le_of_succ_le_succ, rfl⟩

/-- A fetched word has the byte at `pc` as its high byte and the byte after it as its low byte (R67). -/
theorem toNat_of_fetch_eq_ok {s : State} {w : Word} (h : s.fetch = .ok w) :
    w.toNat = (s.readByte (s.pc.toNat % 4096)).toNat * 256 + (s.readByte ((s.pc.toNat + 1) % 4096)).toNat := by
  obtain ⟨-, rfl⟩ := (fetch_eq_ok _ _).mp h
  exact toNat_wordOfBytes _ _

/-- Settles O8: the word is `wordOfBytes` of the two bytes, whose value is high byte times 256 plus low byte. -/
theorem fetchIsBigEndian : Obligations.FetchIsBigEndian := by
  intro s
  refine ⟨fun a0 a1 h0 h1 => ?_, fun w hw => toNat_of_fetch_eq_ok hw⟩
  exact ⟨_, fetch_of_formAddr h0 h1, toNat_wordOfBytes _ _⟩

end Sys2Proof.Machine
end

section
/-! SUPPORT. The encoding (30_encoding.md): the decoder on the words of the four anchors of R98. -/

namespace Sys2Proof

theorem decode_encode_ldByte (x : Reg) (kk : Byte) : decode (encode (.ldByte x kk)) = .ok (.ldByte x kk) := by
  obtain ⟨hop, hx, hkk⟩ := fields_formatXK 0x6 x kk (by decide)
  simp only [encode, decode, hop, hx, hkk]

theorem decode_encode_addByte (x : Reg) (kk : Byte) : decode (encode (.addByte x kk)) = .ok (.addByte x kk) := by
  obtain ⟨hop, hx, hkk⟩ := fields_formatXK 0x7 x kk (by decide)
  simp only [encode, decode, hop, hx, hkk]

theorem decode_encode_storeRegs (x : Reg) : decode (encode (.storeRegs x)) = .ok (.storeRegs x) := by
  obtain ⟨hop, hx, hs⟩ := fields_formatX 0xF x 0x55 (by decide) (by decide)
  simp only [encode, decode, decodeFamilyF, hop, hx, hs]

theorem decode_encode_jpV0 (nnn : Addr12) : decode (encode (.jpV0 nnn)) = .ok (.jpV0 nnn) := by
  obtain ⟨hop, hnnn⟩ := fields_formatA 0xB nnn (by decide)
  simp only [encode, decode, hop, hnnn]

/-- The word `Fx55` is the encoding of `LD [I],Vx` (R96, R98). -/
theorem encode_storeRegs_eq (x : Reg) : encode (.storeRegs x) = BitVec.ofNat 16 (0xF055 + x.val * 256) :=
  congrArg (BitVec.ofNat 16) (by omega)

/-- The 12-bit operand `XNN` with top nibble `x` and trailing byte `nn` (R93). -/
def operandOf (x : Reg) (nn : Byte) : Addr12 := BitVec.ofNat 12 (x.val * 256 + nn.toNat)

theorem toNat_operandOf (x : Reg) (nn : Byte) : (operandOf x nn).toNat = x.val * 256 + nn.toNat := by
  have := nn.isLt
  simp only [operandOf, BitVec.toNat_ofNat]
  omega

theorem topNibble_operandOf (x : Reg) (nn : Byte) : Machine.topNibble (operandOf x nn) = x := by
  have := nn.isLt
  apply Fin.ext
  simp only [Machine.topNibble, toNat_operandOf, Fin.val_ofNat]
  omega

/-- The word `BXNN` is the encoding of `JP V0, XNN` (R96, R98). -/
theorem encode_jpV0_operandOf (x : Reg) (nn : Byte) :
    encode (.jpV0 (operandOf x nn)) = BitVec.ofNat 16 (0xB000 + x.val * 256 + nn.toNat) := by
  simp only [encode, formatA, toNat_operandOf, Nat.add_assoc]

/-- Settles O5: each anchor is the encoding of the instruction R98 names, and the decoder gives that instruction
back. -/
theorem theFourAnchorsDecode : Obligations.TheFourAnchorsDecode := by
  refine ⟨decode_encode_ldByte 0xA 0x02, decode_encode_addByte 0xA 0x05, fun x => ?_, fun x nn => ?_⟩
  · rw [← encode_storeRegs_eq]
    exact decode_encode_storeRegs x
  · refine ⟨operandOf x nn, ?_, topNibble_operandOf x nn, toNat_operandOf x nn⟩
    rw [← encode_jpV0_operandOf]
    exact decode_encode_jpV0 _

end Sys2Proof
end

section
/-! SUPPORT. The step cycle (40_step_cycle.md): the decoder on bytes, the instructions it gives, and the step that
runs one. -/

namespace Sys2Proof

/-- The decoder on two or more bytes reads the word of the first two and leaves the others (R90). -/
theorem decodeBytes_cons_cons_eq_ok {hi lo : Byte} {bytes rest : List Byte} {i : Instr} :
    decodeBytes (hi :: lo :: bytes) = .ok (i, rest) ↔ decode (wordOfBytes hi lo) = .ok i ∧ bytes = rest := by
  cases hdecode : decode (wordOfBytes hi lo) <;> simp [decodeBytes, hdecode]

theorem fieldN_le (w : Word) : fieldN w ≤ 15 := Nat.le_of_lt_succ (Nat.mod_lt _ (by decide))

theorem wellFormed_of_decodeFamily8 {w : Word} {i : Instr} (h : decodeFamily8 w = .ok i) : i.wellFormed = true := by
  unfold decodeFamily8 at h
  split at h <;> cases h <;> rfl

theorem wellFormed_of_decodeFamilyF {w : Word} {i : Instr} (h : decodeFamilyF w = .ok i) : i.wellFormed = true := by
  unfold decodeFamilyF at h
  split at h <;> cases h <;> rfl

/-- The decoder gives well-formed instructions only: its one sprite height is the four-bit field `n` (R91, R93). -/
theorem wellFormed_of_decode {w : Word} {i : Instr} (h : decode w = .ok i) : i.wellFormed = true := by
  unfold decode at h
  -- One case per leading nibble, counted from 1: `h_14` is the family `0xD` of DRW, the only one with a height.
  split at h
  case h_9 => exact wellFormed_of_decodeFamily8 h
  case h_14 =>
    cases h
    exact decide_eq_true (fieldN_le w)
  case h_16 => exact wellFormed_of_decodeFamilyF h
  case h_1 | h_6 | h_10 | h_15 => split at h <;> cases h <;> rfl
  all_goals
    cases h
    rfl

namespace Machine

/-- The state an instruction executes in has its `pc` advanced by 2, as the address policy stores it (R65, R120). -/
theorem advance_eq_pcValue (s : State) : s.advance = { s with pc := pcValue s.cfg.addrPolicy (s.pc.toNat + 2) } := by
  rw [← storedPc_eq_pcValue]
  rfl

/-- Settles O7: the two bytes are the word fetched, so the step executes what that word decodes to. -/
theorem stepRunsTheDecodedInstruction : Obligations.StepRunsTheDecodedInstruction := by
  intro s i rest hrunning hrange hbytes
  obtain ⟨hdecode, -⟩ := decodeBytes_cons_cons_eq_ok.mp hbytes
  have hfetch := (fetch_eq_ok s _).mpr ⟨hrange, rfl⟩
  refine ⟨wellFormed_of_decode hdecode, ?_⟩
  rw [step_of_fetch_decode hrunning hfetch hdecode, advance_eq_pcValue]

end Machine
end Sys2Proof
end

section
/-! SUPPORT. Control flow (41_control_flow.md): the jump and the conditional skips. -/

namespace Sys2Proof.Machine

/-- A 12-bit target is below 4096, so `SetPC` stores it as it is under both policies (R65, R131). -/
theorem storedPc_toNat_addr12 (p : AddrPolicy) (nnn : Addr12) : storedPc p nnn.toNat = nnn.setWidth 16 := by
  rw [storedPc_of_lt p _ nnn.isLt, BitVec.ofNat_toNat]

theorem exec_jp (nnn : Addr12) (s : State) : exec (.jp nnn) s = .next { s with pc := nnn.setWidth 16 } := by
  rw [← storedPc_toNat_addr12 s.cfg.addrPolicy]
  rfl

/-- Settles O26: `SetPC` stores a 12-bit target unreduced. -/
theorem jumpSetsTheProgramCounter : Obligations.JumpSetsTheProgramCounter := exec_jp

/-- A conditional skip whose Boolean test decides `p` moves the advanced `pc` by 2 more when `p` holds (R138). -/
theorem State.skipIf_eq_ite {c : Bool} {p : Prop} [Decidable p] (s : State) (hc : c = true ↔ p) :
    s.skipIf c = if p then { s with pc := pcValue s.cfg.addrPolicy (s.pc.toNat + 2) } else s := by
  simp only [State.skipIf, hc, State.setPc, storedPc_eq_pcValue]

/-- Settles O30: each form is a conditional skip, and its test decides the equality or the inequality it names. -/
theorem conditionalSkipsSkipExactlyOnTheirCondition : Obligations.ConditionalSkipsSkipExactlyOnTheirCondition := by
  intro x y kk s
  refine ⟨?seByte, ?seReg, ?sneByte, ?sneReg⟩
  case seByte | seReg => exact congrArg _ (s.skipIf_eq_ite beq_iff_eq)
  case sneByte | sneReg => exact congrArg _ (s.skipIf_eq_ite bne_iff_ne)

end Sys2Proof.Machine
end

section
/-! SUPPORT. The register loads, arithmetic and logic (42_alu.md): the flags and the difference as arithmetic, and the
state that a result alone, or a result and then a flag, leaves. -/

namespace Sys2Proof.Machine

/-! ### Flags and the difference -/

theorem flagByte_decide (p : Prop) [Decidable p] : flagByte (decide p) = if p then 1 else 0 := by
  simp only [flagByte, decide_eq_true_eq]

theorem flagByte_carryOut (a b : Byte) : flagByte (carryOut a b) = if a.toNat + b.toNat > 255 then 1 else 0 :=
  flagByte_decide _

theorem flagByte_noBorrow (a b : Byte) : flagByte (noBorrow a b) = if a ≥ b then 1 else 0 := flagByte_decide _

/-- The least non-negative residue of the difference is the difference of the bytes (R9, R153). -/
theorem subMod256_eq_sub (a b : Byte) : subMod256 a b = a - b := by
  have hb := b.isLt
  apply BitVec.eq_of_toNat_eq
  rw [subMod256, BitVec.toNat_ofInt, BitVec.toNat_sub]
  omega

/-! ### Results and flags -/

/-- Writing a result changes the register file at its register and nothing else (R141 to R143). -/
theorem State.setV_eq_set_getV (s : State) (x : Reg) (v : Byte) :
    s.setV x v = { s with V := s.V.set x ((s.setV x v).getV x) } := by
  rw [State.getV_setV, if_pos rfl]
  rfl

/-- The flag survives the result (R23). -/
theorem State.getV_setVFlag_VF (s : State) (x : Reg) (v : Byte) (c : Bool) :
    (s.setVFlag x v c).getV VF = flagByte c := by
  rw [State.getV_setVFlag, if_pos rfl]

theorem State.getV_setVFlag_self (s : State) {x : Reg} (hx : x ≠ VF) (v : Byte) (c : Bool) :
    (s.setVFlag x v c).getV x = v := by
  rw [State.getV_setVFlag, if_neg hx, if_pos rfl]

/-- Writing a result and then the flag changes the register file at those two registers and nothing else; with
`x = 15` the two writes are one (R23). -/
theorem State.setVFlag_eq_set_getV (s : State) (x : Reg) (v : Byte) (c : Bool) :
    s.setVFlag x v c =
      { s with V := (s.V.set x ((s.setVFlag x v c).getV x)).set VF ((s.setVFlag x v c).getV VF) } := by
  by_cases hx : x = VF
  · subst hx
    rw [State.getV_setVFlag_VF, Vector.set_set]
    exact congrArg (fun V => { s with V }) (Vector.set_set _ _)
  · rw [State.getV_setVFlag_VF, State.getV_setVFlag_self s hx]
    rfl

/-- The write that SUB and SUBN share: the difference, then its not-borrow (R148, R150). -/
theorem State.setVFlag_subMod256 (s : State) (x : Reg) (a b : Byte) :
    s.setVFlag x (subMod256 a b) (noBorrow a b) =
      { s with V := (s.V.set x (a - b)).set VF (if a ≥ b then 1 else 0) } := by
  rw [← subMod256_eq_sub, ← flagByte_noBorrow]
  rfl

/-! ### The obligations -/

/-- Settles O34: the sum is written first and the carry last, so the carry stands in VF for every `x`. -/
theorem addRegistersSetsCarryLast : Obligations.AddRegistersSetsCarryLast := by
  intro x y s
  refine ⟨_, rfl, fun hx => ?sum, ?carry, State.setVFlag_eq_set_getV s x _ _⟩
  case sum =>
    rw [State.getV_setVFlag_self s hx, BitVec.toNat_ofNat]
    exact Nat.mod_mod _ _
  case carry =>
    rw [State.getV_setVFlag_VF, flagByte_carryOut]

/-- Settles O36: both forms are the shared write, SUBN with the operands exchanged. -/
theorem subtractionsSetNoBorrowLast : Obligations.SubtractionsSetNoBorrowLast := fun x y s =>
  ⟨congrArg _ (s.setVFlag_subMod256 x (s.getV x) (s.getV y)),
    congrArg _ (s.setVFlag_subMod256 x (s.getV y) (s.getV x))⟩

/-- Settles O32: each load is one register write. -/
theorem loadsSetTheRegister : Obligations.LoadsSetTheRegister := fun _ _ _ _ => ⟨rfl, rfl⟩

/-- Settles O33: the wrapped sum goes to `V[x]` alone, so VF keeps its value unless it is `V[x]`. -/
theorem addImmediateWrapsWithoutFlag : Obligations.AddImmediateWrapsWithoutFlag := by
  intro x kk s
  refine ⟨_, rfl, ?sum, fun hx => ?flag, s.setV_eq_set_getV x _⟩
  case sum =>
    rw [State.getV_setV, if_pos rfl, BitVec.toNat_ofNat]
    exact Nat.mod_mod _ _
  case flag =>
    rw [State.getV_setV, if_neg hx.symm]

/-- Settles O35: each logic form is one register write. -/
theorem logicInstructionsAreBitwise : Obligations.LogicInstructionsAreBitwise := fun _ _ _ => ⟨rfl, rfl, rfl⟩

end Sys2Proof.Machine
end

section
/-! SUPPORT. The index register (43_index_memory.md): the load of I and the addition to it. -/

namespace Sys2Proof.Machine

/-- A sum reduced modulo 4096 fits the 16-bit index register, which holds it exactly (R24, R162). -/
theorem toNat_ofNat_mod_4096 (a : Nat) : (BitVec.ofNat 16 (a % 4096)).toNat = a % 4096 := by
  rw [BitVec.toNat_ofNat]
  omega

theorem exec_ldI (nnn : Addr12) (s : State) : exec (.ldI nnn) s = .next { s with I := nnn.setWidth 16 } := by
  rw [← BitVec.ofNat_toNat]
  rfl

/-- ADD I writes the reduced sum to I alone; neither the address policy nor VF takes part (R162). -/
theorem exec_addI (x : Reg) (s : State) :
    exec (.addI x) s = .next { s with I := BitVec.ofNat 16 ((s.I.toNat + (s.getV x).toNat) % 4096) } := rfl

/-- Settles O40: each form is one write of I, and the sum is below 4096 when it is written. -/
theorem indexLoadAndAdd : Obligations.IndexLoadAndAdd := fun nnn x s =>
  ⟨exec_ldI nnn s, _, exec_addI x s, toNat_ofNat_mod_4096 _, rfl⟩

end Sys2Proof.Machine
end

section
/-! SUPPORT. The display (44_display.md): the clear screen. -/

namespace Sys2Proof.Machine

theorem exec_cls (s : State) : exec .cls s = .next { s with FB := Framebuffer.blank } := rfl

/-- Settles O47: the framebuffer is the one component CLS writes, and every pixel of the blank one is unset. -/
theorem clearScreenClearsEveryPixel : Obligations.ClearScreenClearsEveryPixel := fun s =>
  ⟨_, exec_cls s, Framebuffer.pixel_blank, rfl⟩

end Sys2Proof.Machine
end

section
/-! SUPPORT. The keypad and timer instructions (45_keypad_timers.md): the key that a register value selects, and the
three timer moves. -/

namespace Sys2Proof.Machine

/-- The selected key is the value's low 4 bits, so the high nibble takes no part (R180). -/
theorem val_keyOf (v : Byte) : (keyOf v).val = (v &&& 0x0F).toNat := by
  rw [BitVec.toNat_and]
  exact (Nat.and_two_pow_sub_one_eq_mod v.toNat 4).symm

/-- The test of SKP and SKNP reads the flag of the key at the register's low 4 bits (R181, R182). -/
theorem State.keyPressed_eq (s : State) {x : Reg} {k : Key} (hk : k.val = (s.getV x &&& 0x0F).toNat) :
    s.keyPressed x = s.KEY[k] := by
  obtain rfl : keyOf (s.getV x) = k := Fin.ext ((val_keyOf _).trans hk.symm)
  rfl

theorem exec_skp (x : Reg) (s : State) : exec (.skp x) s = .next (s.skipIf (s.keyPressed x)) := rfl

theorem exec_sknp (x : Reg) (s : State) : exec (.sknp x) s = .next (s.skipIf (!s.keyPressed x)) := rfl

/-- Settles O50: both forms are conditional skips on the flag of the selected key, SKNP on its negation. -/
theorem keySkipsTestTheSelectedKey : Obligations.KeySkipsTestTheSelectedKey := by
  intro x s k hk
  rw [exec_skp, exec_sknp, s.keyPressed_eq hk]
  exact ⟨congrArg _ (s.skipIf_eq_ite Iff.rfl), congrArg _ (s.skipIf_eq_ite (iff_of_eq (Bool.not_eq_true' _)))⟩

/-- Settles O53: each move is one write, of a register or of a timer. -/
theorem timerMovesCopyTheByte : Obligations.TimerMovesCopyTheByte := fun _ _ => ⟨rfl, rfl, rfl⟩

end Sys2Proof.Machine
end

section
/-! SUPPORT. The encoding (30_encoding.md): the decoder and the encoder undo each other, the opcode map's masks, and
the illegal words. -/

namespace Sys2Proof

/-! ### The fields of a format, one by one -/

@[simp] theorem fieldOp_formatA {op : Nat} (nnn : Addr12) (h : op < 16) : fieldOp (formatA op nnn) = op :=
  (fields_formatA op nnn h).1

@[simp] theorem fieldNNN_formatA {op : Nat} (nnn : Addr12) (h : op < 16) : fieldNNN (formatA op nnn) = nnn :=
  (fields_formatA op nnn h).2

@[simp] theorem fieldOp_formatXK {op : Nat} (x : Reg) (kk : Byte) (h : op < 16) : fieldOp (formatXK op x kk) = op :=
  (fields_formatXK op x kk h).1

@[simp] theorem fieldX_formatXK {op : Nat} (x : Reg) (kk : Byte) (h : op < 16) : fieldX (formatXK op x kk) = x :=
  (fields_formatXK op x kk h).2.1

@[simp] theorem fieldKK_formatXK {op : Nat} (x : Reg) (kk : Byte) (h : op < 16) : fieldKK (formatXK op x kk) = kk :=
  (fields_formatXK op x kk h).2.2

section FormatXYN
variable {op n : Nat} (x y : Reg) (h : op < 16) (hn : n < 16)
include h hn

@[simp] theorem fieldOp_formatXYN : fieldOp (formatXYN op x y n) = op := (fields_formatXYN op x y n h hn).1

@[simp] theorem fieldX_formatXYN : fieldX (formatXYN op x y n) = x := (fields_formatXYN op x y n h hn).2.1

@[simp] theorem fieldY_formatXYN : fieldY (formatXYN op x y n) = y := (fields_formatXYN op x y n h hn).2.2.1

@[simp] theorem fieldN_formatXYN : fieldN (formatXYN op x y n) = n := (fields_formatXYN op x y n h hn).2.2.2

end FormatXYN

section FormatX
variable {op k : Nat} (x : Reg) (h : op < 16) (hk : k < 256)
include h hk

@[simp] theorem fieldOp_formatX : fieldOp (formatX op x k) = op := (fields_formatX op x k h hk).1

@[simp] theorem fieldX_formatX : fieldX (formatX op x k) = x := (fields_formatX op x k h hk).2.1

@[simp] theorem trailingByte_formatX : (formatX op x k).toNat % 256 = k := (fields_formatX op x k h hk).2.2

end FormatX

/-! ### Decoding an encoded instruction -/

/-- Every well-formed instruction is decoded from its own word; the cases are the four word formats of R92, with the
two fixed words of CLS and RET. -/
theorem decode_encode {i : Instr} (hwf : i.wellFormed = true) : decode (encode i) = .ok i := by
  cases i
  case cls | ret => rfl
  case jp | call | ldI | jpV0 =>
    simp only [encode, decode, Nat.reduceLT, fieldOp_formatA, fieldNNN_formatA]
  case seByte | sneByte | ldByte | addByte | rnd =>
    simp only [encode, decode, Nat.reduceLT, fieldOp_formatXK, fieldX_formatXK, fieldKK_formatXK]
  case drw x y n =>
    have hn : n < 16 := Nat.lt_succ_of_le (of_decide_eq_true hwf)
    simp only [encode, decode, Nat.reduceLT, hn, fieldOp_formatXYN, fieldX_formatXYN, fieldY_formatXYN,
      fieldN_formatXYN]
  case seReg | sneReg | ldReg | addReg | orReg | andReg | xorReg | subReg | subnReg | shr | shl =>
    simp only [encode, decode, decodeFamily8, Nat.reduceLT, fieldOp_formatXYN, fieldX_formatXYN, fieldY_formatXYN,
      fieldN_formatXYN]
  case skp | sknp | ldVxDt | ldDtVx | ldStVx | ldVxK | addI | ldF | ldB | storeRegs | loadRegs =>
    simp only [encode, decode, decodeFamilyF, Nat.reduceLT, fieldOp_formatX, fieldX_formatX, trailingByte_formatX]

/-- Settles O1: the fields of each format come back from the word the encoder builds of them. -/
theorem decodingAnEncodedInstructionGivesItBack : Obligations.DecodingAnEncodedInstructionGivesItBack :=
  fun _ => decode_encode

/-! ### Encoding a decoded word -/

section Fields
variable {w : Word} {op k : Nat} (hop : fieldOp w = op)
include hop

/-- A word is its leading nibble and its address immediate (R92). -/
theorem formatA_fields : formatA op (fieldNNN w) = w := by
  apply BitVec.eq_of_toNat_eq
  have := w.isLt
  simp only [formatA, fieldNNN, ← hop, fieldOp, BitVec.toNat_ofNat]
  omega

/-- A word is its leading nibble, its register and its trailing byte (R92). -/
theorem formatXK_fields : formatXK op (fieldX w) (fieldKK w) = w := by
  apply BitVec.eq_of_toNat_eq
  have := w.isLt
  simp only [formatXK, fieldX, fieldKK, ← hop, fieldOp, BitVec.toNat_ofNat, Fin.val_ofNat]
  omega

/-- A word is its four nibbles (R92). -/
theorem formatXYN_fields (hn : fieldN w = k) : formatXYN op (fieldX w) (fieldY w) k = w := by
  apply BitVec.eq_of_toNat_eq
  have := w.isLt
  simp only [formatXYN, fieldX, fieldY, ← hop, ← hn, fieldOp, fieldN, BitVec.toNat_ofNat, Fin.val_ofNat]
  omega

/-- A word is its leading nibble, its register and its trailing byte as a number (R92). -/
theorem formatX_fields (hk : w.toNat % 256 = k) : formatX op (fieldX w) k = w := by
  apply BitVec.eq_of_toNat_eq
  have := w.isLt
  simp only [formatX, fieldX, ← hop, ← hk, fieldOp, BitVec.toNat_ofNat, Fin.val_ofNat]
  omega

end Fields

theorem fieldOp_lt (w : Word) : fieldOp w < 16 := by
  have := w.isLt
  unfold fieldOp
  omega

theorem encode_of_decodeFamily8 {w : Word} {i : Instr} (hop : fieldOp w = 8) (h : decodeFamily8 w = .ok i) :
    encode i = w := by
  unfold decodeFamily8 at h
  split at h <;> cases h
  all_goals
    rename_i hn
    exact formatXYN_fields hop hn

theorem encode_of_decodeFamilyF {w : Word} {i : Instr} (hop : fieldOp w = 15) (h : decodeFamilyF w = .ok i) :
    encode i = w := by
  unfold decodeFamilyF at h
  split at h <;> cases h
  all_goals
    rename_i hk
    exact formatX_fields hop hk

/-- A word that decodes is the encoding of its instruction: no bit of it is dropped. -/
theorem encode_of_decode {w : Word} {i : Instr} (h : decode w = .ok i) : encode i = w := by
  unfold decode at h
  -- One case per leading nibble, counted from 1.
  split at h
  case h_1 =>
    split at h <;> cases h
    all_goals
      rename_i hw
      exact BitVec.eq_of_toNat_eq hw.symm
  case h_9 hop => exact encode_of_decodeFamily8 hop h
  case h_6 hop | h_10 hop =>
    split at h <;> cases h
    rename_i hn
    exact formatXYN_fields hop hn
  case h_15 hop =>
    split at h <;> cases h
    all_goals
      rename_i hk
      exact formatX_fields hop hk
  case h_16 =>
    have hop : fieldOp w = 15 := by
      have := fieldOp_lt w
      simp only [imp_false] at *
      omega
    exact encode_of_decodeFamilyF hop h
  case h_2 hop | h_3 hop | h_11 hop | h_12 hop =>
    cases h
    exact formatA_fields hop
  case h_4 hop | h_5 hop | h_7 hop | h_8 hop | h_13 hop =>
    cases h
    exact formatXK_fields hop
  case h_14 hop =>
    cases h
    exact formatXYN_fields hop rfl

/-- Settles O2: the decoder's fields are the ones the instruction's format puts together again. -/
theorem aDecodedWordIsTheEncodingOfItsInstruction : Obligations.ADecodedWordIsTheEncodingOfItsInstruction :=
  fun _ _ h => ⟨encode_of_decode h, wellFormed_of_decode h⟩

/-! ### The opcode map (R96) -/

section Masks
variable {w m : Word}

/-- Under the mask of formats A and XK a word matches when its leading nibble does. -/
theorem and_F000_eq_iff (hm : m.toNat % 4096 = 0) : w &&& 0xF000#16 = m ↔ fieldOp w = fieldOp m := by
  rw [← mask_F000 w (fieldOp m) (fieldOp_lt m), fieldOp, Nat.div_mul_cancel (Nat.dvd_of_mod_eq_zero hm),
    BitVec.ofNat_toNat, BitVec.setWidth_eq]

/-- Under the mask of format XY a word matches when its leading and trailing nibbles do. -/
theorem and_F00F_eq_iff (hm : m.toNat % 4096 < 16) :
    w &&& 0xF00F#16 = m ↔ fieldOp w = fieldOp m ∧ fieldN w = fieldN m := by
  have hsum : m = BitVec.ofNat 16 (fieldOp m * 4096 + fieldN m) := by
    apply BitVec.eq_of_toNat_eq
    simp only [fieldOp, fieldN, BitVec.toNat_ofNat]
    omega
  rw [← mask_F00F w _ _ (fieldOp_lt m) (Nat.lt_succ_of_le (fieldN_le m)), ← hsum]

/-- Under the mask of format X a word matches when its leading nibble and its trailing byte do. -/
theorem and_F0FF_eq_iff (hm : m.toNat % 4096 < 256) :
    w &&& 0xF0FF#16 = m ↔ fieldOp w = fieldOp m ∧ w.toNat % 256 = m.toNat % 256 := by
  have hsum : m = BitVec.ofNat 16 (fieldOp m * 4096 + m.toNat % 256) := by
    apply BitVec.eq_of_toNat_eq
    simp only [fieldOp, BitVec.toNat_ofNat]
    omega
  rw [← mask_F0FF w _ _ (fieldOp_lt m) (Nat.mod_lt _ (by decide)), ← hsum]

end Masks

/-- The word of an instruction matches the instruction's row. -/
theorem encode_matches_row {i : Instr} (hwf : i.wellFormed = true) :
    ∃ row, opcodeRows[i.row]? = some row ∧ encode i &&& row.2 = row.1 := by
  cases i
  case cls | ret => exact ⟨_, rfl, rfl⟩
  case jp nnn | call nnn | ldI nnn | jpV0 nnn =>
    exact ⟨_, rfl, (and_F000_eq_iff rfl).mpr (fieldOp_formatA nnn (by decide))⟩
  case seByte x kk | sneByte x kk | ldByte x kk | addByte x kk | rnd x kk =>
    exact ⟨_, rfl, (and_F000_eq_iff rfl).mpr (fieldOp_formatXK x kk (by decide))⟩
  case drw x y n =>
    have hn : n < 16 := Nat.lt_succ_of_le (of_decide_eq_true hwf)
    exact ⟨_, rfl, (and_F000_eq_iff rfl).mpr (fieldOp_formatXYN x y (by decide) hn)⟩
  case seReg x y | sneReg x y | ldReg x y | addReg x y | orReg x y | andReg x y | xorReg x y | subReg x y |
      subnReg x y | shr x y | shl x y =>
    exact ⟨_, rfl, (and_F00F_eq_iff (by decide)).mpr
      ⟨fieldOp_formatXYN x y (by decide) (by decide), fieldN_formatXYN x y (by decide) (by decide)⟩⟩
  case skp x | sknp x | ldVxDt x | ldDtVx x | ldStVx x | ldVxK x | addI x | ldF x | ldB x | storeRegs x |
      loadRegs x =>
    exact ⟨_, rfl, (and_F0FF_eq_iff (by decide)).mpr
      ⟨fieldOp_formatX x (by decide) (by decide), trailingByte_formatX x (by decide) (by decide)⟩⟩

/-- A word that matches a row decodes to an instruction of that row: the mask fixes the fields the decoder branches
on. -/
theorem decode_of_matches_row {w : Word} {k : Fin 34}
    (h : ∃ row, opcodeRows[k.val]? = some row ∧ w &&& row.2 = row.1) : ∃ i, decode w = .ok i ∧ i.row = k.val := by
  obtain ⟨row, hrow, hm⟩ := h
  -- One case per row, counted from 0 and grouped by the row's mask: 0xFFFF, 0xF000, 0xF00F, 0xF0FF.
  match k with
  | 0 | 1 =>
    obtain rfl := Option.some.inj hrow
    obtain rfl := (BitVec.and_allOnes (x := w)).symm.trans hm
    exact ⟨_, rfl, rfl⟩
  | 2 | 3 | 4 | 6 | 8 | 10 | 19 | 20 | 21 | 22 =>
    obtain rfl := Option.some.inj hrow
    rw [decode, (and_F000_eq_iff rfl).mp hm]
    exact ⟨_, rfl, rfl⟩
  | 5 | 7 =>
    obtain rfl := Option.some.inj hrow
    obtain ⟨hop, hn⟩ := (and_F00F_eq_iff (by decide)).mp hm
    rw [decode, hop, hn]
    exact ⟨_, rfl, rfl⟩
  | 9 | 11 | 12 | 13 | 14 | 15 | 16 | 17 | 18 =>
    obtain rfl := Option.some.inj hrow
    obtain ⟨hop, hn⟩ := (and_F00F_eq_iff (by decide)).mp hm
    rw [decode, hop, decodeFamily8, hn]
    exact ⟨_, rfl, rfl⟩
  | 23 | 24 =>
    obtain rfl := Option.some.inj hrow
    obtain ⟨hop, hk⟩ := (and_F0FF_eq_iff (by decide)).mp hm
    rw [decode, hop, hk]
    exact ⟨_, rfl, rfl⟩
  | 25 | 26 | 27 | 28 | 29 | 30 | 31 | 32 | 33 =>
    obtain rfl := Option.some.inj hrow
    obtain ⟨hop, hk⟩ := (and_F0FF_eq_iff (by decide)).mp hm
    rw [decode, hop, decodeFamilyF, hk]
    exact ⟨_, rfl, rfl⟩

/-- Settles O3: a decoded word is the encoding of its instruction, which matches that instruction's row; conversely a
row's mask fixes the fields the decoder branches on. -/
theorem decodingFollowsMatchAndMask : Obligations.DecodingFollowsMatchAndMask := by
  refine fun w k => ⟨decode_of_matches_row, ?_⟩
  rintro ⟨i, hdecode, hrow⟩
  rw [← hrow, ← encode_of_decode hdecode]
  exact encode_matches_row (wellFormed_of_decode hdecode)

/-! ### The illegal words (R106) -/

theorem fieldKK_eq_ofNat_iff (w : Word) {k : Nat} (hk : k < 256) :
    fieldKK w = BitVec.ofNat 8 k ↔ w.toNat % 256 = k := by
  rw [← BitVec.toNat_inj, fieldKK, BitVec.toNat_ofNat, BitVec.toNat_ofNat, Nat.mod_eq_of_lt hk]

/-- Family 0x8 refuses seven of the sixteen trailing nibbles. -/
theorem decodeFamily8_eq_illegalWord (w : Word) :
    decodeFamily8 w = .error (.illegalWord w) ↔ fieldN w ∈ [0x8, 0x9, 0xA, 0xB, 0xC, 0xD, 0xF] := by
  have hlt : fieldN w < 16 := Nat.lt_succ_of_le (fieldN_le w)
  unfold decodeFamily8
  generalize fieldN w = n at hlt ⊢
  interval_cases n <;> simp

/-- Family 0xF accepts nine trailing bytes. -/
theorem decodeFamilyF_eq_illegalWord (w : Word) :
    decodeFamilyF w = .error (.illegalWord w) ↔
      fieldKK w ∉ [0x07, 0x0A, 0x15, 0x18, 0x1E, 0x29, 0x33, 0x55, 0x65] := by
  simp only [List.mem_cons, List.not_mem_nil, or_false, BitVec.ofNat_eq_ofNat, Nat.reduceLT, fieldKK_eq_ofNat_iff]
  unfold decodeFamilyF
  split
  case h_10 => simp_all only [imp_false, or_self, not_false_eq_true]
  all_goals
    rename_i hk
    simp [hk]

/-- Settles O4: by the leading nibble; a family of the table with operands in every word has no illegal one, and the
others answer an error where no branch of their second dispatch is taken. -/
theorem illegalWordsAreThoseOfTheSixFamilies : Obligations.IllegalWordsAreThoseOfTheSixFamilies := by
  intro w
  have hlt := fieldOp_lt w
  unfold decode
  generalize fieldOp w = op at hlt ⊢
  match op, hlt with
  | 0, _ =>
    simp only [ne_eq, ← BitVec.toNat_inj, BitVec.ofNat_eq_ofNat, BitVec.toNat_ofNat]
    split <;> simp_all
  | 5, _ | 9, _ => cases fieldN w <;> simp
  | 8, _ => simpa using decodeFamily8_eq_illegalWord w
  | 14, _ =>
    simp only [ne_eq, BitVec.ofNat_eq_ofNat, Nat.reduceLT, fieldKK_eq_ofNat_iff]
    split <;> simp_all
  | 15, _ => simpa using decodeFamilyF_eq_illegalWord w
  | 1, _ | 2, _ | 3, _ | 4, _ | 6, _ | 7, _ | 10, _ | 11, _ | 12, _ | 13, _ => simp
  | _ + 16, hop => omega

/-- Settles O6: each word is the encoding of the instruction listed, or in family 0x5 with a trailing nibble
that is not 0. -/
theorem listedWordsDecode : Obligations.ListedWordsDecode := by
  unfold Obligations.ListedWordsDecode
  decide

end Sys2Proof
end

section
/-! SUPPORT. Each instruction with more than one outcome as an equation: the state it leaves, case by case, so that no
later proof unfolds a meaning (41_control_flow.md, 43_index_memory.md, 44_display.md, 45_keypad_timers.md). -/

namespace Sys2Proof.Machine

/-! ### Accesses from I (R63, R66) -/

/-- The state after the bytes of a list are stored from I upward. -/
def State.storeBytes (s : State) (bs : List Byte) : State :=
  s.writeCells (((List.range bs.length).map (byteAddr s)).zip bs)

theorem readByte_storeBytes_of_lt (s : State) {bs : List Byte} (hn : bs.length ≤ 16) {k : Nat} (hk : k < bs.length) :
    (s.storeBytes bs).readByte (byteAddr s k) = bs[k] :=
  readByte_writeCells_of_lt s bs (by omega) k hk

theorem readByte_storeBytes_of_ne (s : State) {bs : List Byte} {a : Nat} (h : ∀ k < bs.length, a ≠ byteAddr s k) :
    (s.storeBytes bs).readByte a = s.readByte a :=
  readByte_writeCells_of_ne s bs a h

/-- An instruction that reads `n` bytes from I does so when the access fits and otherwise raises AddressRange. -/
theorem settle_map_memRead (s : State) (n : Nat) (f : List Byte → State) :
    s.settle ((s.memRead s.I.toNat n).map f) =
      .next (if AccessFits s n then f (spriteRows s n) else s.raise .addressRange) := by
  split
  case isTrue hfit =>
    rw [memRead_ok s n hfit]
    rfl
  case isFalse hfit =>
    obtain ⟨e, he⟩ := memRead_error s n hfit
    rw [he]
    rfl

/-- An instruction that stores bytes from I does so when the access fits and otherwise raises AddressRange. -/
theorem settle_map_memWrite (s : State) (bs : List Byte) (f : State → State) :
    s.settle ((s.memWrite s.I.toNat bs).map f) =
      .next (if AccessFits s bs.length then f (s.storeBytes bs) else s.raise .addressRange) := by
  split
  case isTrue hfit =>
    rw [memWrite_ok s bs hfit]
    rfl
  case isFalse hfit =>
    obtain ⟨e, he⟩ := memWrite_error s bs hfit
    rw [he]
    rfl

theorem exec_drw (x y : Reg) (n : Nat) (s : State) :
    exec (.drw x y n) s =
      .next (if AccessFits s n then s.drawSprite x y (spriteRows s n) else s.raise .addressRange) :=
  settle_map_memRead s n _

theorem exec_loadRegs (x : Reg) (s : State) :
    exec (.loadRegs x) s =
      .next (if AccessFits s (x.val + 1) then (s.setRegs (spriteRows s (x.val + 1))).bumpI x
        else s.raise .addressRange) :=
  settle_map_memRead s _ _

theorem exec_storeRegs (x : Reg) (s : State) :
    exec (.storeRegs x) s =
      .next (if AccessFits s (x.val + 1) then (s.storeBytes (s.regsUpTo x)).bumpI x else s.raise .addressRange) := by
  have h := settle_map_memWrite s (s.regsUpTo x) (·.bumpI x)
  rwa [length_regsUpTo] at h

theorem exec_ldB (x : Reg) (s : State) :
    exec (.ldB x) s =
      .next (if AccessFits s 3 then s.storeBytes (decimalDigits (s.getV x)) else s.raise .addressRange) :=
  (congrArg s.settle (id_map _).symm).trans (settle_map_memWrite s (decimalDigits (s.getV x)) id)

/-- The two outcomes of an instruction with an access from I. -/
theorem access_cases {s t u : State} {n : Nat}
    (h : (.next (if AccessFits s n then t else s.raise .addressRange) : Result) = .next u) :
    (AccessFits s n ∧ u = t) ∨ (¬ AccessFits s n ∧ u = s.raise .addressRange) := by
  split at h
  case isTrue hfit => exact .inl ⟨hfit, (Host.Outcome.next.inj h).symm⟩
  case isFalse hfit => exact .inr ⟨hfit, (Host.Outcome.next.inj h).symm⟩

/-- An access that does not fit is one under FAULT with an address above 0xFFF. -/
theorem not_accessFits_iff (s : State) (n : Nat) :
    ¬ AccessFits s n ↔ s.cfg.addrPolicy = .fault ∧ ∃ a ∈ span s.I.toNat n, 0xFFF < a := by
  have hpolicy : s.cfg.addrPolicy ≠ .wrap ↔ s.cfg.addrPolicy = .fault := by cases s.cfg.addrPolicy <;> simp
  simp only [AccessFits, not_or, hpolicy, not_forall, not_le, mem_span]
  refine and_congr_right fun _ => ⟨?_, ?_⟩
  · rintro ⟨k, hk, hlt⟩
    exact ⟨_, ⟨k, hk, rfl⟩, hlt⟩
  · rintro ⟨_, ⟨k, hk, rfl⟩, hlt⟩
    exact ⟨k, hk, hlt⟩

/-! ### Jumps -/

/-- The target of `JP V0, addr` is reduced, and refused under FAULT when it needs reducing (R137). -/
theorem exec_jpV0 (nnn : Addr12) (s : State) :
    exec (.jpV0 nnn) s =
      .next (if s.cfg.addrPolicy = .fault ∧ 0xFFF < nnn.toNat + (s.jumpOffset nnn).toNat then s.raise .addressRange
        else s.setPc ((nnn.toNat + (s.jumpOffset nnn).toNat) % 4096)) := by
  show s.settle ((formAddr s.cfg.addrPolicy (nnn.toNat + (s.jumpOffset nnn).toNat)).map s.setPc) = _
  generalize nnn.toNat + (s.jumpOffset nnn).toNat = a
  split
  case isTrue h =>
    rw [(formAddr_eq_error _ _ _).mpr ⟨rfl, h⟩]
    rfl
  case isFalse h =>
    have hok : s.cfg.addrPolicy = .wrap ∨ a ≤ 0xFFF := by
      cases hp : s.cfg.addrPolicy <;> simp_all
    rw [(formAddr_eq_ok _ _ _).mpr ⟨rfl, hok⟩]
    rfl

theorem exec_jpV0_cases {nnn : Addr12} {s t : State} (h : exec (.jpV0 nnn) s = .next t) :
    ((s.cfg.addrPolicy = .fault ∧ 0xFFF < nnn.toNat + (s.jumpOffset nnn).toNat) ∧ t = s.raise .addressRange) ∨
    (¬ (s.cfg.addrPolicy = .fault ∧ 0xFFF < nnn.toNat + (s.jumpOffset nnn).toNat) ∧
      t = s.setPc ((nnn.toNat + (s.jumpOffset nnn).toNat) % 4096)) := by
  rw [exec_jpV0] at h
  split at h
  case isTrue hrange => exact .inl ⟨hrange, (Host.Outcome.next.inj h).symm⟩
  case isFalse hrange => exact .inr ⟨hrange, (Host.Outcome.next.inj h).symm⟩

/-! ### The call stack -/

theorem exec_ret_of_nil {s : State} (h : s.stack = []) : exec .ret s = .next (s.raise .stackUnderflow) := by
  simp only [exec, execRet, State.pop, h]

theorem exec_ret_of_cons {s : State} {v : Word} {rest : List Word} (h : s.stack = v :: rest) :
    exec .ret s = .next (({ s with stack := rest } : State).setPc v.toNat) := by
  simp only [exec, execRet, State.pop, h]

theorem exec_ret_cases {s t : State} (h : exec .ret s = .next t) :
    (s.stack = [] ∧ t = s.raise .stackUnderflow) ∨
    ∃ v rest, s.stack = v :: rest ∧ t = ({ s with stack := rest } : State).setPc v.toNat := by
  cases hst : s.stack with
  | nil => exact .inl ⟨rfl, Host.Outcome.next.inj (h.symm.trans (exec_ret_of_nil hst))⟩
  | cons v rest => exact .inr ⟨v, rest, rfl, Host.Outcome.next.inj (h.symm.trans (exec_ret_of_cons hst))⟩

theorem exec_call_of_full (nnn : Addr12) {s : State} (h : 16 ≤ s.sp) :
    exec (.call nnn) s = .next (s.raise .stackOverflow) := by
  simp only [exec, execCall, (push_eq_none s s.pc).mpr h]

theorem exec_call_of_lt (nnn : Addr12) {s : State} (h : s.sp < 16) :
    exec (.call nnn) s = .next (({ s with stack := s.pc :: s.stack } : State).setPc nnn.toNat) := by
  simp only [exec, execCall, (push_eq_some s _ s.pc).mpr ⟨h, rfl⟩]

theorem exec_call_cases {nnn : Addr12} {s t : State} (h : exec (.call nnn) s = .next t) :
    (16 ≤ s.sp ∧ t = s.raise .stackOverflow) ∨
    (s.sp < 16 ∧ t = ({ s with stack := s.pc :: s.stack } : State).setPc nnn.toNat) := by
  rcases le_or_gt 16 s.sp with hfull | hlt
  · exact .inl ⟨hfull, Host.Outcome.next.inj (h.symm.trans (exec_call_of_full nnn hfull))⟩
  · exact .inr ⟨hlt, Host.Outcome.next.inj (h.symm.trans (exec_call_of_lt nnn hlt))⟩

/-! ### The key wait -/

theorem exec_ldVxK_of_pressed (x : Reg) {s : State} {k : Key} (h : s.leastPressed = some k) :
    exec (.ldVxK x) s = .next (s.setV x (BitVec.ofNat 8 k.val)) := by
  simp only [exec, execLdVxK, h]

theorem exec_ldVxK_of_stalled (x : Reg) {s : State} (h : s.leastPressed = none) :
    exec (.ldVxK x) s = .next s.stall := by
  simp only [exec, execLdVxK, h]

theorem exec_ldVxK_cases {x : Reg} {s t : State} (h : exec (.ldVxK x) s = .next t) :
    (∃ k, s.leastPressed = some k ∧ t = s.setV x (BitVec.ofNat 8 k.val)) ∨
    (s.leastPressed = none ∧ t = s.stall) := by
  cases hkey : s.leastPressed with
  | some k => exact .inl ⟨k, rfl, Host.Outcome.next.inj (h.symm.trans (exec_ldVxK_of_pressed x hkey))⟩
  | none => exact .inr ⟨rfl, Host.Outcome.next.inj (h.symm.trans (exec_ldVxK_of_stalled x hkey))⟩

end Sys2Proof.Machine
end

section
/-! SUPPORT. Fatal errors (60_exceptions.md): which instruction raises which cause and when, that a step halts for no
other reason, and what it reports. -/

namespace Sys2Proof.Machine

/-- Executing `i` in `s` raises the fatal error `c` (R202 to R204). -/
inductive Raises : Instr → State → FatalCause → Prop where
  /-- RET on an empty stack. -/
  | underflow {s : State} (hempty : s.stack = []) : Raises .ret s .stackUnderflow
  /-- CALL on a full stack. -/
  | overflow {s : State} (nnn : Addr12) (hfull : 16 ≤ s.sp) : Raises (.call nnn) s .stackOverflow
  /-- An address formed under FAULT is above 0xFFF. -/
  | range {i : Instr} {s : State} {a : Nat} (hpolicy : s.cfg.addrPolicy = .fault) (hmem : a ∈ formedAddrs i s)
      (ha : 0xFFF < a) : Raises i s .addressRange

/-- The two outcomes of an instruction: a fatal error it has reason to raise, with nothing else changed, or a state
whose halted state is the one before. -/
abbrev RaisesOrRuns (i : Instr) (s : State) : Prop :=
  (∃ c, Raises i s c ∧ exec i s = .next (s.raise c)) ∨ ∃ t, exec i s = .next t ∧ t.halted = s.halted

/-- An instruction whose only error is an access to `n` bytes from I. -/
theorem raisesOrRuns_of_access {i : Instr} {s t : State} {n : Nat} (haddrs : formedAddrs i s = span s.I.toNat n)
    (hexec : exec i s = .next (if AccessFits s n then t else s.raise .addressRange)) (ht : t.halted = s.halted) :
    RaisesOrRuns i s := by
  by_cases hfit : AccessFits s n
  · rw [if_pos hfit] at hexec
    exact .inr ⟨t, hexec, ht⟩
  · rw [if_neg hfit] at hexec
    obtain ⟨hpolicy, a, hmem, ha⟩ := (not_accessFits_iff s n).mp hfit
    exact .inl ⟨_, .range hpolicy (haddrs ▸ hmem) ha, hexec⟩

theorem exec_raises_or_runs (i : Instr) (s : State) : RaisesOrRuns i s := by
  cases i
  case ret =>
    cases hstack : s.stack with
    | nil => exact .inl ⟨_, .underflow hstack, exec_ret_of_nil hstack⟩
    | cons v rest => exact .inr ⟨_, exec_ret_of_cons hstack, rfl⟩
  case call nnn =>
    by_cases hfull : 16 ≤ s.sp
    · exact .inl ⟨_, .overflow nnn hfull, exec_call_of_full nnn hfull⟩
    · exact .inr ⟨_, exec_call_of_lt nnn (not_le.mp hfull), rfl⟩
  case jpV0 nnn =>
    have hexec := exec_jpV0 nnn s
    split at hexec
    case isTrue hrange => exact .inl ⟨_, .range hrange.1 (List.mem_singleton.mpr rfl) hrange.2, hexec⟩
    case isFalse => exact .inr ⟨_, hexec, rfl⟩
  case drw x y n => exact raisesOrRuns_of_access rfl (exec_drw x y n s) rfl
  case ldB x => exact raisesOrRuns_of_access rfl (exec_ldB x s) rfl
  case storeRegs x => exact raisesOrRuns_of_access rfl (exec_storeRegs x s) rfl
  case loadRegs x => exact raisesOrRuns_of_access rfl (exec_loadRegs x s) rfl
  case ldVxK x =>
    cases hkey : s.leastPressed with
    | some k => exact .inr ⟨_, exec_ldVxK_of_pressed x hkey, rfl⟩
    | none => exact .inr ⟨_, exec_ldVxK_of_stalled x hkey, rfl⟩
  case seByte | seReg | sneByte | sneReg | skp | sknp => exact .inr ⟨_, rfl, State.skipIf_halted s _⟩
  all_goals exact .inr ⟨_, rfl, rfl⟩

/-- Settles O12: an instruction answers one of its two outcomes, and a step stays halted, halts, skips an illegal word
or is an instruction. -/
theorem everyInstructionAndStepAnswersANextState : Obligations.EveryInstructionAndStepAnswersANextState := by
  have hexec (i : Instr) (s : State) : ∃ t, exec i s = .next t := by
    obtain ⟨c, -, h⟩ | ⟨t, h, -⟩ := exec_raises_or_runs i s
    exacts [⟨_, h⟩, ⟨t, h⟩]
  refine ⟨hexec, fun s => ?_⟩
  unfold step cycle
  split
  · exact ⟨_, rfl⟩
  split
  · exact ⟨_, rfl⟩
  unfold runWord
  split
  · exact hexec _ _
  · exact ⟨_, rfl⟩

/-- An instruction that leaves a running machine halted has raised the cause it is halted with, and changed nothing
else. -/
theorem raises_of_exec_halted {i : Instr} {s t : State} {c : FatalCause} (hrunning : s.halted = none)
    (h : exec i s = .next t) (hc : t.halted = some c) : Raises i s c ∧ t = s.raise c := by
  obtain ⟨d, hraises, hexec⟩ | ⟨u, hexec, hu⟩ := exec_raises_or_runs i s
  · obtain rfl := Host.Outcome.next.inj (h.symm.trans hexec)
    obtain rfl := Option.some.inj ((State.raise_halted s d).symm.trans hc)
    exact ⟨hraises, rfl⟩
  · obtain rfl := Host.Outcome.next.inj (h.symm.trans hexec)
    simp [hu, hrunning] at hc

/-- The two ways a step halts a running machine: a fetch out of range, or a fatal error of the fetched instruction. -/
theorem step_halts_cases {s t : State} {c : FatalCause} (hrunning : s.halted = none) (h : step s = .next t)
    (hc : t.halted = some c) :
    (∃ a, s.fetch = .error a ∧ c = .addressRange ∧ t = s.raise .addressRange) ∨
    ∃ w i, s.fetch = .ok w ∧ decode w = .ok i ∧ Raises i s.advance c ∧ t = s.advance.raise c := by
  obtain ⟨d, hd, -⟩ | ⟨-, a, hf, rfl⟩ | ⟨-, w, e, hf, hdec, rfl⟩ | ⟨-, w, i, hf, hdec, hexec⟩ := step_cases h
  · simp [hd] at hrunning
  · exact .inl ⟨a, hf, (Option.some.inj hc).symm, rfl⟩
  · simp [hrunning] at hc
  · obtain ⟨hraises, rfl⟩ := raises_of_exec_halted (State.advance_halted s ▸ hrunning) hexec hc
    exact .inr ⟨w, i, hf, hdec, hraises, rfl⟩

/-- Settles O20: every reason to raise AddressRange is one under FAULT. -/
theorem wrapNeverRaisesAddressRange : Obligations.WrapNeverRaisesAddressRange := by
  intro s t hwrap hs h hc
  cases hhalted : s.halted with
  | some c =>
    obtain ⟨-, -, rfl⟩ | ⟨hrunning, -⟩ | ⟨hrunning, -⟩ | ⟨hrunning, -⟩ := step_cases h
    · exact hs hc
    all_goals simp [hhalted] at hrunning
  | none =>
    obtain ⟨a, hf, -⟩ | ⟨w, i, -, -, hraises, -⟩ := step_halts_cases hhalted h hc
    · obtain ⟨hfault, -⟩ := (fetch_eq_error s a).mp hf
      simp [hwrap] at hfault
    · cases hraises with
      | range hfault => simp [hwrap] at hfault

/-- Settles O21: by the reason the step had to halt. -/
theorem aStepHaltsOnlyForItsFatalErrors : Obligations.AStepHaltsOnlyForItsFatalErrors := by
  intro s t c hrunning h hc
  obtain ⟨a, hf, rfl, -⟩ | ⟨w, i, hf, hdec, hraises, -⟩ := step_halts_cases hrunning h hc
  · obtain ⟨hfault, hpc, -⟩ := (fetch_eq_error s a).mp hf
    exact .inr (.inr ⟨rfl, hfault, .inl hpc⟩)
  · cases hraises with
    | underflow hempty =>
      rw [encode_of_decode hdec]
      exact .inl ⟨rfl, hf, hempty⟩
    | overflow nnn hfull =>
      refine .inr (.inl ⟨rfl, hfull, nnn, ?_⟩)
      rw [encode_of_decode hdec]
      exact hf
    | range hfault hmem ha => exact .inr (.inr ⟨rfl, hfault, .inr ⟨w, i, hf, hdec, _, hmem, ha⟩⟩)

/-- Settles O22: a fatal error is raised in the advanced state, a fetch fault in the state before. -/
theorem fatalErrorsArePrecise : Obligations.FatalErrorsArePrecise := by
  intro s t c hrunning h hc
  obtain ⟨a, hf, rfl, rfl⟩ | ⟨w, i, hf, -, -, rfl⟩ := step_halts_cases hrunning h hc
  · refine ⟨fun ⟨w, hw⟩ => ?_, fun _ => ⟨rfl, rfl⟩⟩
    simp [hf] at hw
  · refine ⟨fun _ => ?_, fun ⟨a, ha⟩ => ?_⟩
    · rw [advance_eq]
      rfl
    · simp [hf] at ha

/-! ### Reports (R12, R208) -/

theorem execReport_of_running {i : Instr} {s t : State} (h : exec i s = .next t) (ht : t.halted = none) :
    execReport i s = .ok := by
  simp only [execReport, h, ht]

theorem execReport_of_halted {i : Instr} {s t : State} {c : FatalCause} (h : exec i s = .next t)
    (ht : t.halted = some c) : execReport i s = .fatal c (offendingAddr s.cfg.addrPolicy (formedAddrs i s)) := by
  simp only [execReport, h, ht]

/-- Where an address is out of range, an address out of range is reported. -/
theorem offendingAddr_of_range {p : AddrPolicy} {as : List Nat} {a : Nat} (hp : p = .fault) (hmem : a ∈ as)
    (ha : 0xFFF < a) : ∃ e, offendingAddr p as = some e ∧ 0xFFF < e := by
  unfold offendingAddr
  cases hform : formAddrs p as with
  | error e => exact ⟨e, rfl, (formAddrs_eq_error hform).2.2⟩
  | ok bs =>
    obtain ⟨-, hwrap | hall⟩ := (formAddrs_eq_ok p as bs).mp hform
    · simp [hp] at hwrap
    · have := hall a hmem
      omega

/-- The report of a running machine's step, by what its fetch and its decoding give. -/
theorem stepReport_of_fetch_error {s : State} {a : Nat} (hrunning : s.halted = none) (hf : s.fetch = .error a) :
    stepReport s = .fatal .addressRange (some a) := by
  simp only [stepReport, hrunning, hf]

theorem stepReport_of_decode_error {s : State} {w : Word} {e : DecodeError} (hrunning : s.halted = none)
    (hf : s.fetch = .ok w) (hdec : decode w = .error e) : stepReport s = .decodeFailure w s.pc := by
  simp only [stepReport, hrunning, hf, hdec]

theorem stepReport_of_decode {s : State} {w : Word} {i : Instr} (hrunning : s.halted = none)
    (hf : s.fetch = .ok w) (hdec : decode w = .ok i) : stepReport s = execReport i s.advance := by
  simp only [stepReport, hrunning, hf, hdec]

/-- Settles O10: the halted state is tested first. -/
theorem stepWhileHaltedChangesNothing : Obligations.StepWhileHaltedChangesNothing := by
  intro s c h
  constructor
  · simp only [step, cycle, h]
  · simp only [stepReport, h]

/-- Settles O11: the fetch fails before the advance. -/
theorem fetchBeyondMemoryHaltsUnderFault : Obligations.FetchBeyondMemoryHaltsUnderFault := by
  intro s hrunning hfault hpc
  have hf := (fetch_eq_error s _).mpr ⟨hfault, hpc, rfl⟩
  refine ⟨?_, stepReport_of_fetch_error hrunning hf⟩
  simp only [step, cycle, hrunning, hf, State.raise]

/-- Settles O9: an illegal word leaves the advanced state. -/
theorem illegalWordIsReportedAndSkipped : Obligations.IllegalWordIsReportedAndSkipped := by
  intro s w e hrunning hf hdec
  refine ⟨?_, stepReport_of_decode_error hrunning hf hdec⟩
  rw [← advance_eq]
  simp only [step, cycle, runWord, hrunning, hf, hdec]

/-- Settles O23: by what the step did; an instruction's report names the cause it raised, with an address exactly
where the cause is AddressRange. -/
theorem reportAgreesWithTheStep : Obligations.ReportAgreesWithTheStep := by
  intro s t h
  obtain ⟨c, hc, rfl⟩ | ⟨hrunning, a, hf, rfl⟩ | ⟨hrunning, w, e, hf, hdec, rfl⟩ | ⟨hrunning, w, i, hf, hdec, hexec⟩ :=
    step_cases h
  · rw [(stepWhileHaltedChangesNothing _ c hc).2]
    exact ⟨hc, rfl⟩
  · rw [stepReport_of_fetch_error hrunning hf]
    exact ⟨hrunning, rfl, rfl, .inr ((fetch_eq_error s a).mp hf).2.2⟩
  · rw [stepReport_of_decode_error hrunning hf hdec]
    exact ⟨hrunning, hrunning, hf, rfl, decode_error_eq hdec ▸ hdec⟩
  · rw [stepReport_of_decode hrunning hf hdec]
    cases hc : t.halted with
    | none =>
      rw [execReport_of_running hexec hc]
      exact ⟨hrunning, rfl⟩
    | some c =>
      rw [execReport_of_halted hexec hc]
      cases (raises_of_exec_halted (State.advance_halted s ▸ hrunning) hexec hc).1 with
      | underflow => exact ⟨hrunning, rfl, by decide⟩
      | overflow => exact ⟨hrunning, rfl, by decide⟩
      | range hfault hmem ha =>
        obtain ⟨e, he, hlt⟩ := offendingAddr_of_range hfault hmem ha
        rw [he]
        exact ⟨hrunning, rfl, rfl, .inl hlt⟩

end Sys2Proof.Machine
end

section
/-! SUPPORT. The invariant of reachable states (40_step_cycle.md R126): what a state has in which an instruction
executes, and that every instruction, step and event keeps the invariant. -/

namespace Sys2Proof.Machine

/-! ### What each operation needs to keep the invariant -/

/-- Under WRAP every stored program counter is below 4096; under FAULT it is no larger than its target (R65). -/
theorem toNat_storedPc_le {p : AddrPolicy} {b t : Nat} (hb : 0xFFF ≤ b) (ht : p = .fault → t ≤ b) :
    (storedPc p t).toNat ≤ b := by
  cases p with
  | wrap =>
    simp only [storedPc, toNat_ofNat_mod_4096]
    omega
  | fault => exact (Nat.mod_le t _).trans (ht rfl)

theorem le_pcBound (p : AddrPolicy) : 0xFFF ≤ pcBound p := by cases p <;> decide

theorem le_entryBound (p : AddrPolicy) : 0xFFF ≤ entryBound p := by cases p <;> decide

theorem entryBound_le_pcBound (p : AddrPolicy) : entryBound p ≤ pcBound p := by cases p <;> decide

section
variable {s : State} (h : s.Inv)
include h

theorem inv_setPc {t : Nat} (ht : s.cfg.addrPolicy = .fault → t ≤ pcBound s.cfg.addrPolicy) : (s.setPc t).Inv := by
  obtain ⟨hI, hsp, -, hstack, hmem, hhalted⟩ := h
  exact ⟨hI, hsp, toNat_storedPc_le (le_pcBound _) ht, hstack, hmem, hhalted⟩

theorem inv_setStack {st : List Word} (hsp : st.length ≤ 16)
    (hst : ∀ e ∈ st, e.toNat ≤ entryBound s.cfg.addrPolicy) : ({ s with stack := st } : State).Inv := by
  obtain ⟨hI, -, hpc, -, hmem, hhalted⟩ := h
  exact ⟨hI, hsp, hpc, hst, hmem, hhalted⟩

theorem inv_setI {v : Word} (hv : v.toNat < 4096) : ({ s with I := v } : State).Inv := by
  obtain ⟨-, hsp, hpc, hstack, hmem, hhalted⟩ := h
  exact ⟨hv, hsp, hpc, hstack, hmem, hhalted⟩

theorem inv_bumpI (x : Reg) : (s.bumpI x).Inv := by
  refine inv_setI h ?_
  split
  · rw [toNat_ofNat_mod_4096]
    exact Nat.mod_lt _ (by decide)
  · exact h.1

theorem inv_writeCells {cells : List (Nat × Byte)} (hcells : ∀ c ∈ cells, c.1 < 4096) : (s.writeCells cells).Inv := by
  obtain ⟨hI, hsp, hpc, hstack, hmem, hhalted⟩ := h
  exact ⟨hI, hsp, hpc, hstack, Memory.writeAll_wf _ _ hmem hcells, hhalted⟩

theorem inv_storeBytes (bs : List Byte) : (s.storeBytes bs).Inv := by
  refine inv_writeCells h fun c hc => ?_
  obtain ⟨k, -, hk⟩ := List.mem_map.mp (List.of_mem_zip (a := c.1) (b := c.2) hc).1
  rw [← hk]
  exact byteAddr_lt s k

theorem inv_raise {c : FatalCause} (hc : s.cfg.addrPolicy = .wrap → c ≠ .addressRange) : (s.raise c).Inv := by
  obtain ⟨hI, hsp, hpc, hstack, hmem, -⟩ := h
  exact ⟨hI, hsp, hpc, hstack, hmem, fun hwrap hsome => hc hwrap (Option.some.inj hsome)⟩

end

/-! ### Instructions -/

/-- What holds of the state an instruction executes in, whose `pc` is already past the instruction. -/
structure State.Ready (s : State) : Prop where
  /-- The invariant itself. -/
  inv : s.Inv
  /-- A CALL may push `pc`. -/
  pc_le : s.pc.toNat ≤ entryBound s.cfg.addrPolicy
  /-- A stall may put `pc` back by 2. -/
  pc_ge : s.cfg.addrPolicy = .fault → 2 ≤ s.pc.toNat

/-- A fetch leaves an advanced state in which an instruction may execute: under FAULT it succeeds up to 0xFFE only. -/
theorem ready_advance {s : State} {w : Word} (h : s.Inv) (hf : s.fetch = .ok w) : s.advance.Ready := by
  have hpc : s.cfg.addrPolicy = .fault → s.pc.toNat ≤ 0xFFE := fun hfault =>
    ((fetch_eq_ok s w).mp hf).1.resolve_left (by simp [hfault])
  have hle : s.cfg.addrPolicy = .fault → s.pc.toNat + 2 ≤ entryBound s.cfg.addrPolicy := fun hfault => by
    simpa [hfault, entryBound] using hpc hfault
  refine ⟨inv_setPc h fun hfault => (hle hfault).trans (entryBound_le_pcBound _),
    toNat_storedPc_le (le_entryBound _) hle, fun hfault => ?_⟩
  have := hpc hfault
  rw [State.advance_cfg] at hfault
  simp only [State.advance_pc, hfault, storedPc, BitVec.toNat_ofNat]
  omega

/-- A property of what an access from I leaves, and under FAULT of the halted state, is one of the next state. -/
theorem access_elim {P : State → Prop} {s t u : State} {n : Nat}
    (h : (.next (if AccessFits s n then t else s.raise .addressRange) : Result) = .next u) (hfit : P t)
    (hraise : s.cfg.addrPolicy = .fault → P (s.raise .addressRange)) : P u := by
  obtain ⟨-, rfl⟩ | ⟨hnot, rfl⟩ := access_cases h
  · exact hfit
  · exact hraise ((not_accessFits_iff s n).mp hnot).1

/-- Under FAULT AddressRange may be raised. -/
theorem inv_raise_addressRange {s : State} (h : s.Inv) (hfault : s.cfg.addrPolicy = .fault) :
    (s.raise .addressRange).Inv := inv_raise h fun hwrap => by simp [hfault] at hwrap

theorem inv_skipIf {s : State} (hs : s.Ready) (c : Bool) : (s.skipIf c).Inv := by
  cases c with
  | false => exact hs.inv
  | true =>
    refine inv_setPc hs.inv fun hfault => ?_
    simpa [hfault, entryBound, pcBound] using hs.pc_le

theorem inv_stall {s : State} (hs : s.Ready) : s.stall.Inv := by
  refine inv_setPc hs.inv fun hfault => le_trans ?_ (hs.pc_le.trans (entryBound_le_pcBound _))
  have := hs.pc_ge hfault
  bv_omega

theorem glyphAddr_lt (v : Byte) : glyphAddr v < 4096 := by
  unfold glyphAddr fontBase
  omega

theorem exec_keeps_inv {i : Instr} {s t : State} (hs : s.Ready) (h : exec i s = .next t) : t.Inv := by
  have hinv := hs.inv
  have hto {t : Nat} (ht : t < 4096) : (s.setPc t).Inv :=
    inv_setPc hinv fun _ => (Nat.le_of_lt_succ ht).trans (le_pcBound _)
  obtain ⟨-, hsp, -, hstack, -, -⟩ := hs.inv
  cases i
  case jp nnn =>
    cases h
    exact hto nnn.isLt
  case jpV0 nnn =>
    obtain ⟨hrange, rfl⟩ | ⟨-, rfl⟩ := exec_jpV0_cases h
    · exact inv_raise_addressRange hinv hrange.1
    · exact hto (Nat.mod_lt _ (by decide))
  case call nnn =>
    obtain ⟨-, rfl⟩ | ⟨hlt, rfl⟩ := exec_call_cases h
    · exact inv_raise hinv fun _ => by decide
    · refine inv_setPc (inv_setStack (st := s.pc :: s.stack) hinv (Nat.succ_le_of_lt hlt) ?_) fun _ =>
        (Nat.le_of_lt_succ nnn.isLt).trans (le_pcBound _)
      exact List.forall_mem_cons.mpr ⟨hs.pc_le, hstack⟩
  case ret =>
    obtain ⟨-, rfl⟩ | ⟨v, rest, hst, rfl⟩ := exec_ret_cases h
    · exact inv_raise hinv fun _ => by decide
    · rw [State.sp, hst, List.length_cons] at hsp
      rw [hst, List.forall_mem_cons] at hstack
      exact inv_setPc (inv_setStack hinv (by omega) hstack.2) fun _ =>
        hstack.1.trans (entryBound_le_pcBound _)
  case seByte | seReg | sneByte | sneReg | skp | sknp =>
    cases h
    exact inv_skipIf hs _
  case ldVxK x =>
    obtain ⟨k, -, rfl⟩ | ⟨-, rfl⟩ := exec_ldVxK_cases h
    · exact hinv
    · exact inv_stall hs
  case ldI nnn =>
    cases h
    refine inv_setI hinv ?_
    rw [BitVec.toNat_ofNat]
    exact (Nat.mod_le _ _).trans_lt nnn.isLt
  case addI x =>
    cases h
    refine inv_setI hinv ?_
    rw [toNat_ofNat_mod_4096]
    exact Nat.mod_lt _ (by decide)
  case ldF x =>
    cases h
    refine inv_setI hinv ?_
    rw [BitVec.toNat_ofNat]
    exact (Nat.mod_le _ _).trans_lt (glyphAddr_lt _)
  case drw x y n =>
    rw [exec_drw] at h
    exact access_elim h hinv (inv_raise_addressRange hinv)
  case ldB x =>
    rw [exec_ldB] at h
    exact access_elim h (inv_storeBytes hinv _) (inv_raise_addressRange hinv)
  case storeRegs x =>
    rw [exec_storeRegs] at h
    exact access_elim h (inv_bumpI (inv_storeBytes hinv _) x) (inv_raise_addressRange hinv)
  case loadRegs x =>
    rw [exec_loadRegs] at h
    exact access_elim h (inv_bumpI (s := s.setRegs _) hinv x) (inv_raise_addressRange hinv)
  -- The remaining instructions write what the invariant says nothing of: registers, timers, pixels, the draw counter.
  all_goals
    cases h
    exact hinv

/-! ### Steps, events and runs -/

/-- Settles O13: by what the step did; an instruction executes in a state made ready by the fetch. -/
theorem stepKeepsTheInvariant : Obligations.StepKeepsTheInvariant := by
  intro s t hinv h
  obtain ⟨-, -, rfl⟩ | ⟨-, a, hf, rfl⟩ | ⟨-, w, e, hf, -, rfl⟩ | ⟨-, w, i, hf, -, hexec⟩ := step_cases h
  · exact hinv
  · exact inv_raise_addressRange hinv ((fetch_eq_error s a).mp hf).1
  · exact (ready_advance hinv hf).inv
  · exact exec_keeps_inv (ready_advance hinv hf) hexec

theorem inv_create (c : Config) : (State.create c).Inv := by
  refine ⟨by simp, Nat.zero_le _, ?_, fun e he => ?_, rfl, fun _ => ?_⟩
  · exact le_trans (by decide : (0x200 : Word).toNat ≤ 0xFFF) (le_pcBound _)
  · simp at he
  · simp

/-- Settles O14: the values of R36 are in range under both policies, and reset is a creation. -/
theorem creationMeetsTheInvariant : Obligations.CreationMeetsTheInvariant := ⟨inv_create {}, inv_create⟩

/-- The step event is the step. -/
theorem step_eq_apply (s : State) : step s = .next (Event.step.apply s) := by
  obtain ⟨t, ht⟩ := everyInstructionAndStepAnswersANextState.2 s
  simp only [Event.apply, ht]

theorem apply_setKey_of_lt {k : Nat} (hk : k < 16) (p : Bool) (s : State) :
    (Event.setKey k p).apply s = { s with KEY := s.KEY.set k p } := by
  simp only [Event.apply, State.setKey, dif_pos hk, Option.getD_some]

theorem apply_setKey_of_ge {k : Nat} (hk : 16 ≤ k) (p : Bool) (s : State) : (Event.setKey k p).apply s = s := by
  simp only [Event.apply, State.setKey, dif_neg (not_lt.mpr hk), Option.getD_none]

theorem apply_load_of_le {bytes : List Byte} (hlen : bytes.length ≤ 3584) (s : State) :
    (Event.load bytes).apply s = s.writeCells ((span romBase bytes.length).zip bytes) := by
  rw [Event.apply, State.load, if_pos (show bytes.length ≤ romMax from hlen), Option.getD_some]

theorem apply_load_of_gt {bytes : List Byte} (hlen : 3584 < bytes.length) (s : State) :
    (Event.load bytes).apply s = s := by
  rw [Event.apply, State.load, if_neg (show ¬ bytes.length ≤ romMax from not_le.mpr hlen), Option.getD_none]

/-- An image that fits lies below 4096. -/
theorem inv_load {s : State} (h : s.Inv) {bytes : List Byte} (hlen : bytes.length ≤ 3584) :
    (s.writeCells ((span romBase bytes.length).zip bytes)).Inv := by
  refine inv_writeCells h fun c hc => ?_
  obtain ⟨k, hk, hck⟩ := (mem_span _ _ _).mp (List.of_mem_zip (a := c.1) (b := c.2) hc).1
  rw [hck, romBase]
  omega

/-- Settles O15: the events between steps write timers, keys, memory below 4096, or the whole creation state. -/
theorem everyEventKeepsTheInvariant : Obligations.EveryEventKeepsTheInvariant := by
  intro e s hinv
  cases e with
  | step => exact stepKeepsTheInvariant s _ hinv (step_eq_apply s)
  | tick => exact hinv
  | snapshot => exact hinv
  | setKey k p =>
    rcases lt_or_ge k 16 with hk | hk
    · rw [apply_setKey_of_lt hk]
      exact hinv
    · rw [apply_setKey_of_ge hk]
      exact hinv
  | load bytes =>
    rcases le_or_gt bytes.length 3584 with hlen | hlen
    · rw [apply_load_of_le hlen]
      exact inv_load hinv hlen
    · rw [apply_load_of_gt hlen]
      exact hinv
  | reset => exact inv_create s.cfg

end Sys2Proof.Machine
end

section
/-! SUPPORT. The reach table (10_state.md R37): what each operation may change, that every instruction stays in its
footprint, and what follows for steps and runs. -/

namespace Sys2Proof.Machine

/-! ### What each operation changes -/

theorem framed_refl (f : Footprint) (s : State) : Framed f s s := by simp [Framed]

theorem framed_trans {f : Footprint} {s t u : State} (hst : Framed f s t) (htu : Framed f t u) : Framed f s u := by
  obtain ⟨hV, hI, hpc, hstack, hDT, hST, hFB, hmem, hhalted, hdraws, hKEY, hcfg⟩ := hst
  obtain ⟨hV', hI', hpc', hstack', hDT', hST', hFB', hmem', hhalted', hdraws', hKEY', hcfg'⟩ := htu
  exact ⟨fun r hr => (hV' r hr).trans (hV r hr), fun h => (hI' h).trans (hI h), fun h => (hpc' h).trans (hpc h),
    fun h => (hstack' h).trans (hstack h), fun h => (hDT' h).trans (hDT h), fun h => (hST' h).trans (hST h),
    fun h => (hFB' h).trans (hFB h), fun a ha => (hmem' a ha).trans (hmem a ha),
    fun h => (hhalted' h).trans (hhalted h), fun h => (hdraws' h).trans (hdraws h), hKEY'.trans hKEY, hcfg'.trans hcfg⟩

section
variable {f : Footprint} (s : State)

theorem framed_setV {r : Reg} (h : r ∈ f.regs) (v : Byte) : Framed f s (s.setV r v) := by
  have hne {q : Reg} (hq : q ∉ f.regs) : q ≠ r := fun e => hq (e ▸ h)
  simp +contextual [Framed, State.getV_setV, State.readByte, hne]

theorem framed_setVFlag {r : Reg} (h : r ∈ f.regs) (hVF : VF ∈ f.regs) (v : Byte) (c : Bool) :
    Framed f s (s.setVFlag r v c) :=
  framed_trans (framed_setV s h v) (framed_setV _ hVF _)

theorem framed_setPc (h : f.pc = true) (t : Nat) : Framed f s (s.setPc t) := by
  simp [Framed, State.getV, State.readByte, h]

theorem framed_skipIf (h : f.pc = true) (c : Bool) : Framed f s (s.skipIf c) := by
  cases c
  · exact framed_refl f s
  · exact framed_setPc s h _

theorem framed_setStack (h : f.stack = true) (st : List Word) : Framed f s { s with stack := st } := by
  simp [Framed, State.getV, State.readByte, h]

theorem framed_setI (h : f.idx = true) (v : Word) : Framed f s { s with I := v } := by
  simp [Framed, State.getV, State.readByte, h]

theorem framed_bumpI (h : f.idx = s.cfg.memoryIncrementQuirk) (x : Reg) : Framed f s (s.bumpI x) := by
  cases hquirk : s.cfg.memoryIncrementQuirk <;> simp [Framed, State.getV, State.readByte, h, hquirk]

theorem framed_setFB (h : f.fb = true) (fb : Framebuffer) : Framed f s { s with FB := fb } := by
  simp [Framed, State.getV, State.readByte, h]

theorem framed_setDT (h : f.dt = true) (v : Byte) : Framed f s { s with DT := v } := by
  simp [Framed, State.getV, State.readByte, h]

theorem framed_setST (h : f.st = true) (v : Byte) : Framed f s { s with ST := v } := by
  simp [Framed, State.getV, State.readByte, h]

theorem framed_draw (h : f.draws = true) : Framed f s s.drawByte.2 := by
  simp [Framed, State.getV, State.readByte, State.drawByte, h]

theorem framed_raise (h : f.halts = true) (c : FatalCause) : Framed f s (s.raise c) := by
  simp [Framed, State.getV, State.readByte, h]

theorem framed_setRegs {bs : List Byte} (hlen : bs.length ≤ 16) (h : ∀ r : Reg, r.val < bs.length → r ∈ f.regs) :
    Framed f s (s.setRegs bs) := by
  have hkeep {r : Reg} (hr : r ∉ f.regs) : (s.setRegs bs).getV r = s.getV r :=
    loadInto_of_not s.V 0 bs r (by omega) (.inr (by simpa using mt (h r) hr))
  simp +contextual [Framed, State.readByte, hkeep]

theorem framed_storeBytes {bs : List Byte} (h : ∀ k < bs.length, byteAddr s k ∈ f.stores) :
    Framed f s (s.storeBytes bs) := by
  have hkeep {a : Nat} (ha : a ∉ f.stores) : (s.storeBytes bs).readByte a = s.readByte a :=
    readByte_storeBytes_of_ne s fun k hk e => ha (e ▸ h k hk)
  refine ⟨fun r _ => rfl, fun _ => rfl, fun _ => rfl, fun _ => rfl, fun _ => rfl, fun _ => rfl, fun _ => rfl,
    fun a ha => hkeep ha, fun _ => rfl, fun _ => rfl, rfl, rfl⟩

end

theorem mem_storedAddrs {s : State} {n k : Nat} (hfit : AccessFits s n) (hk : k < n) :
    byteAddr s k ∈ storedAddrs s n := by
  simp only [storedAddrs, formAddrs_span_ok s n hfit]
  exact List.mem_map_of_mem (List.mem_range.mpr hk)

theorem length_spriteRows (s : State) (n : Nat) : (spriteRows s n).length = n := by simp [spriteRows]

/-! ### Instructions -/

/-- What an access leaves stays in the footprint when the access does so where it fits. -/
theorem framed_access {f : Footprint} {s t u : State} {n : Nat}
    (h : (.next (if AccessFits s n then t else s.raise .addressRange) : Result) = .next u) (hhalts : f.halts = true)
    (hfit : AccessFits s n → Framed f s t) : Framed f s u := by
  obtain ⟨hfits, rfl⟩ | ⟨-, rfl⟩ := access_cases h
  · exact hfit hfits
  · exact framed_raise s hhalts _

theorem exec_framed {i : Instr} {s t : State} (h : exec i s = .next t) : Framed (footprint i s) s t := by
  cases i
  case cls =>
    cases h
    exact framed_setFB s rfl _
  case ret =>
    obtain ⟨-, rfl⟩ | ⟨v, rest, -, rfl⟩ := exec_ret_cases h
    · exact framed_raise s rfl _
    · exact framed_trans (framed_setStack s rfl rest) (framed_setPc _ rfl _)
  case jp =>
    cases h
    exact framed_setPc s rfl _
  case call =>
    obtain ⟨-, rfl⟩ | ⟨-, rfl⟩ := exec_call_cases h
    · exact framed_raise s rfl _
    · exact framed_trans (framed_setStack s rfl _) (framed_setPc _ rfl _)
  case seByte | seReg | sneByte | sneReg | skp | sknp =>
    cases h
    exact framed_skipIf s rfl _
  case ldByte | ldReg | addByte | orReg | andReg | xorReg | ldVxDt =>
    cases h
    exact framed_setV s List.mem_cons_self _
  case addReg | subReg | subnReg | shr | shl =>
    cases h
    exact framed_setVFlag s List.mem_cons_self (List.mem_cons_of_mem _ List.mem_cons_self) _ _
  case ldI | addI | ldF =>
    cases h
    exact framed_setI s rfl _
  case jpV0 =>
    obtain ⟨-, rfl⟩ | ⟨-, rfl⟩ := exec_jpV0_cases h
    · exact framed_raise s rfl _
    · exact framed_setPc s rfl _
  case rnd =>
    cases h
    exact framed_trans (framed_draw s rfl) (framed_setV _ List.mem_cons_self _)
  case ldDtVx =>
    cases h
    exact framed_setDT s rfl _
  case ldStVx =>
    cases h
    exact framed_setST s rfl _
  case ldVxK =>
    obtain ⟨k, -, rfl⟩ | ⟨-, rfl⟩ := exec_ldVxK_cases h
    · exact framed_setV s List.mem_cons_self _
    · exact framed_setPc s rfl _
  case drw x y n =>
    rw [exec_drw] at h
    exact framed_access h rfl fun _ => framed_trans (framed_setFB s rfl _) (framed_setV _ List.mem_cons_self _)
  case ldB x =>
    rw [exec_ldB] at h
    exact framed_access h rfl fun hfit => framed_storeBytes s fun k hk => mem_storedAddrs hfit hk
  case storeRegs x =>
    rw [exec_storeRegs] at h
    refine framed_access h rfl fun hfit => framed_trans (framed_storeBytes s fun k hk => ?_) (framed_bumpI _ rfl x)
    exact mem_storedAddrs hfit (length_regsUpTo s x ▸ hk)
  case loadRegs x =>
    rw [exec_loadRegs] at h
    refine framed_access h rfl fun _ => framed_trans (framed_setRegs s ?_ fun r hr => ?_) (framed_bumpI _ rfl x)
    · rw [length_spriteRows]
      omega
    · rw [length_spriteRows] at hr
      exact (mem_regRange x r).mpr (Nat.le_of_lt_succ hr)

/-- Settles O24: instruction by instruction, from what its operations change. -/
theorem everyInstructionStaysInItsFootprint : Obligations.EveryInstructionStaysInItsFootprint :=
  fun _ _ _ => exec_framed

/-! ### Steps and runs -/

/-- What a step changes beyond `pc` and the halted state, the instruction it ran changed, within its footprint. -/
theorem step_frame {s t : State} (h : step s = .next t) :
    (t.KEY = s.KEY ∧ t.cfg = s.cfg ∧ t.DT = s.DT ∧ t.ST = s.ST ∧ t.FB = s.FB ∧ ∀ a, t.readByte a = s.readByte a) ∨
    ∃ w i, s.fetch = .ok w ∧ decode w = .ok i ∧ exec i s.advance = .next t ∧
      Framed (footprint i s.advance) s.advance t := by
  obtain ⟨-, -, rfl⟩ | ⟨-, -, -, rfl⟩ | ⟨-, -, -, -, -, rfl⟩ | ⟨-, w, i, hf, hdec, hexec⟩ := step_cases h
  case inr.inr.inr => exact .inr ⟨w, i, hf, hdec, hexec, exec_framed hexec⟩
  all_goals exact .inl ⟨rfl, rfl, rfl, rfl, rfl, fun _ => rfl⟩

theorem eq_ldDtVx_of_footprint {i : Instr} {s : State} (h : (footprint i s).dt = true) : ∃ x, i = .ldDtVx x := by
  cases i
  case ldDtVx x => exact ⟨x, rfl⟩
  all_goals cases h

theorem eq_ldStVx_of_footprint {i : Instr} {s : State} (h : (footprint i s).st = true) : ∃ x, i = .ldStVx x := by
  cases i
  case ldStVx x => exact ⟨x, rfl⟩
  all_goals cases h

theorem eq_cls_or_drw_of_footprint {i : Instr} {s : State} (h : (footprint i s).fb = true) :
    i = .cls ∨ ∃ x y n, i = .drw x y n := by
  cases i
  case cls => exact .inl rfl
  case drw x y n => exact .inr ⟨x, y, n, rfl⟩
  all_goals cases h

theorem eq_store_of_footprint {i : Instr} {s : State} {a : Nat} (h : a ∈ (footprint i s).stores) :
    ∃ x, i = .storeRegs x ∨ i = .ldB x := by
  cases i
  case storeRegs x => exact ⟨x, .inl rfl⟩
  case ldB x => exact ⟨x, .inr rfl⟩
  all_goals cases h

/-- Settles O17: no footprint has key flags or the configuration, and one row each has DT and ST. -/
theorem stepLeavesKeysConfigurationAndTimers : Obligations.StepLeavesKeysConfigurationAndTimers := by
  intro s t h
  obtain ⟨hKEY, hcfg, hDT, hST, -⟩ | ⟨w, i, hf, hdec, hexec, hframe⟩ := step_frame h
  · exact ⟨hKEY, hcfg, absurd hDT, absurd hST⟩
  · obtain ⟨-, -, -, -, hDT, hST, -, -, -, -, hKEY, hcfg⟩ := hframe
    refine ⟨hKEY, hcfg, fun hne => ?_, fun hne => ?_⟩
    · obtain ⟨x, rfl⟩ := eq_ldDtVx_of_footprint (Bool.of_not_eq_false (mt hDT hne))
      cases hexec
      exact ⟨w, x, hf, hdec, rfl⟩
    · obtain ⟨x, rfl⟩ := eq_ldStVx_of_footprint (Bool.of_not_eq_false (mt hST hne))
      cases hexec
      exact ⟨w, x, hf, hdec, rfl⟩

/-- Settles O18: two rows of the reach table have stored bytes and two have pixels. -/
theorem onlyStoresWriteMemoryAndOnlyDrawsWritePixels : Obligations.OnlyStoresWriteMemoryAndOnlyDrawsWritePixels := by
  intro s t h
  obtain ⟨-, -, -, -, hFB, hmem⟩ | ⟨w, i, hf, hdec, -, hframe⟩ := step_frame h
  · exact ⟨fun ⟨a, ha⟩ => absurd (hmem a) ha, absurd hFB⟩
  · obtain ⟨-, -, -, -, -, -, hFB, hmem, -⟩ := hframe
    refine ⟨fun ⟨a, ha⟩ => ?_, fun hne => ⟨w, hf, ?_⟩⟩
    · obtain ⟨x, hx⟩ := eq_store_of_footprint (not_not.mp (mt (hmem a) ha))
      obtain rfl | rfl := hx
      exacts [⟨w, x, hf, .inl hdec⟩, ⟨w, x, hf, .inr hdec⟩]
    · obtain rfl | ⟨x, y, n, rfl⟩ := eq_cls_or_drw_of_footprint (Bool.of_not_eq_false (mt hFB hne))
      exacts [.inl hdec, .inr ⟨x, y, n, hdec⟩]

theorem apply_cfg (e : Event) (s : State) : (e.apply s).cfg = s.cfg := by
  cases e with
  | step => exact (stepLeavesKeysConfigurationAndTimers s _ (step_eq_apply s)).2.1
  | tick => rfl
  | snapshot => rfl
  | setKey k p =>
    rcases lt_or_ge k 16 with hk | hk
    · rw [apply_setKey_of_lt hk]
    · rw [apply_setKey_of_ge hk]
  | load bytes =>
    rcases le_or_gt bytes.length 3584 with hlen | hlen
    · rw [apply_load_of_le hlen, State.writeCells_cfg]
    · rw [apply_load_of_gt hlen]
  | reset => rfl

theorem runEvents_keeps_inv_and_cfg (events : List Event) {s : State} (h : s.Inv) :
    (runEvents events s).Inv ∧ (runEvents events s).cfg = s.cfg := by
  induction events generalizing s with
  | nil => exact ⟨h, rfl⟩
  | cons e rest ih =>
    obtain ⟨hinv, hcfg⟩ := ih (everyEventKeepsTheInvariant e s h)
    exact ⟨hinv, hcfg.trans (apply_cfg e s)⟩

/-- Settles O16: creation meets the invariant, and every event keeps it and the configuration. -/
theorem everyReachableStateMeetsTheInvariant : Obligations.EveryReachableStateMeetsTheInvariant :=
  fun c events => runEvents_keeps_inv_and_cfg events (inv_create c)

end Sys2Proof.Machine
end

section
/-! SUPPORT. The agreement of the two address policies (20_memory.md R64): the WRAP view of a state goes through every
operation, so the WRAP machine follows the FAULT machine as long as that raises no AddressRange. -/

namespace Sys2Proof.Machine

/-! ### The view of each operation's result -/

/-- Under WRAP a program counter is stored as it is seen in the view, whatever the other machine's policy stores. -/
theorem storedPc_wrap_congr {a b : Nat} (p : AddrPolicy) (h : a % 4096 = b % 4096) :
    storedPc .wrap a = BitVec.ofNat 16 ((storedPc p b).toNat % 4096) := by
  cases p with
  | wrap => rw [storedPc, storedPc, toNat_ofNat_mod_4096, Nat.mod_mod, h]
  | fault =>
    rw [storedPc, storedPc, BitVec.toNat_ofNat, Nat.mod_mod_of_dvd _ (by decide), h]

theorem toNat_wrapView_pc (s : State) : s.wrapView.pc.toNat = s.pc.toNat % 4096 := toNat_ofNat_mod_4096 _

theorem setPc_wrapView (s : State) {a b : Nat} (h : a % 4096 = b % 4096) : s.wrapView.setPc a = (s.setPc b).wrapView :=
  congrArg (fun pc => { s.wrapView with pc := pc }) (storedPc_wrap_congr s.cfg.addrPolicy h)

theorem advance_wrapView (s : State) : s.wrapView.advance = s.advance.wrapView := by
  refine setPc_wrapView s ?_
  rw [toNat_wrapView_pc]
  omega

theorem skipIf_wrapView (s : State) (c : Bool) : s.wrapView.skipIf c = (s.skipIf c).wrapView := by
  cases c with
  | false => rfl
  | true => exact advance_wrapView s

theorem stall_wrapView (s : State) : s.wrapView.stall = s.stall.wrapView := by
  refine setPc_wrapView s ?_
  have := toNat_wrapView_pc s
  rw [BitVec.toNat_sub, BitVec.toNat_sub, this]
  simp only [BitVec.reduceToNat]
  omega

/-- An access fits in the view, and uses the addresses it uses in the state. -/
theorem accessFits_wrapView (s : State) (n : Nat) : AccessFits s.wrapView n := .inl rfl

theorem fetch_wrapView {s : State} {w : Word} (h : s.fetch = .ok w) : s.wrapView.fetch = .ok w := by
  obtain ⟨-, rfl⟩ := (fetch_eq_ok s w).mp h
  refine (fetch_eq_ok _ _).mpr ⟨.inl rfl, ?_⟩
  rw [toNat_wrapView_pc, Nat.mod_mod, Nat.add_mod (s.pc.toNat % 4096), Nat.mod_mod, ← Nat.add_mod]
  rfl

/-! ### The simulation -/

/-- An instruction with an access from I: where the state's access raises no AddressRange, it fits, and it fits in the
view. -/
theorem access_wrapView {i : Instr} {s t u : State} {n : Nat}
    (h : (.next (if AccessFits s n then t else s.raise .addressRange) : Result) = .next u)
    (hu : u.halted ≠ some .addressRange) {v : State}
    (hv : exec i s.wrapView = .next (if AccessFits s.wrapView n then v else s.wrapView.raise .addressRange))
    (hview : v = t.wrapView) : exec i s.wrapView = .next u.wrapView := by
  rw [hv, if_pos (accessFits_wrapView s n), hview]
  obtain ⟨-, rfl⟩ | ⟨-, rfl⟩ := access_cases h
  · rfl
  · exact absurd rfl hu

theorem exec_wrapView {i : Instr} {s t : State} (h : exec i s = .next t) (ht : t.halted ≠ some .addressRange) :
    exec i s.wrapView = .next t.wrapView := by
  cases i
  case jp nnn =>
    cases h
    exact congrArg Host.Outcome.next (setPc_wrapView s rfl)
  case jpV0 nnn =>
    obtain ⟨-, rfl⟩ | ⟨-, rfl⟩ := exec_jpV0_cases h
    · exact absurd rfl ht
    · rw [exec_jpV0, if_neg (by simp [State.wrapView])]
      exact congrArg Host.Outcome.next (setPc_wrapView s rfl)
  case call nnn =>
    have hsp : s.wrapView.sp = s.sp := List.length_map _
    obtain ⟨hfull, rfl⟩ | ⟨hlt, rfl⟩ := exec_call_cases h
    · exact exec_call_of_full nnn (hsp ▸ hfull)
    · rw [exec_call_of_lt nnn (hsp ▸ hlt), ← setPc_wrapView _ rfl]
      rfl
  case ret =>
    obtain ⟨hst, rfl⟩ | ⟨v, rest, hst, rfl⟩ := exec_ret_cases h
    · exact exec_ret_of_nil (congrArg (List.map _) hst)
    · rw [exec_ret_of_cons (congrArg (List.map _) hst), toNat_ofNat_mod_4096,
        ← setPc_wrapView { s with stack := rest } (Nat.mod_mod _ _)]
      rfl
  case seByte | seReg | sneByte | sneReg | skp | sknp =>
    cases h
    exact congrArg Host.Outcome.next (skipIf_wrapView s _)
  case ldVxK x =>
    obtain ⟨k, hkey, rfl⟩ | ⟨hkey, rfl⟩ := exec_ldVxK_cases h
    · exact exec_ldVxK_of_pressed x hkey
    · rw [exec_ldVxK_of_stalled (s := s.wrapView) x hkey, stall_wrapView]
  case drw x y n =>
    rw [exec_drw] at h
    exact access_wrapView h ht (exec_drw x y n _) rfl
  case ldB x =>
    rw [exec_ldB] at h
    exact access_wrapView h ht (exec_ldB x _) rfl
  case storeRegs x =>
    rw [exec_storeRegs] at h
    exact access_wrapView h ht (exec_storeRegs x _) rfl
  case loadRegs x =>
    rw [exec_loadRegs] at h
    exact access_wrapView h ht (exec_loadRegs x _) rfl
  -- The remaining instructions neither read nor write what the view changes.
  all_goals
    cases h
    rfl

/-- Settles O19: by what the FAULT machine's step did; the view keeps the halted state, the fetched word and the
advance, and goes through the instruction. -/
theorem wrapMachineFollowsFaultMachine : Obligations.WrapMachineFollowsFaultMachine := by
  intro s t _ h ht
  obtain ⟨c, hc, rfl⟩ | ⟨-, a, -, rfl⟩ | ⟨hrunning, w, e, hf, hdec, rfl⟩ | ⟨hrunning, w, i, hf, hdec, hexec⟩ :=
    step_cases h
  · exact (stepWhileHaltedChangesNothing t.wrapView c hc).1
  · exact absurd rfl ht
  · rw [(illegalWordIsReportedAndSkipped s.wrapView w e hrunning (fetch_wrapView hf) hdec).1, ← advance_eq,
      advance_wrapView]
  · rw [step_of_fetch_decode (s := s.wrapView) hrunning (fetch_wrapView hf) hdec, advance_wrapView]
    exact exec_wrapView hexec ht

end Sys2Proof.Machine
end

section
/-! SUPPORT. Control flow (41_control_flow.md): the call stack, the jump with an offset, and a call followed by a
return. -/

namespace Sys2Proof.Machine

/-- Settles O27: `Push` gives the new stack below 16 entries and none at 16, and the fatal error forms no address. -/
theorem callPushesThePcOrOverflows : Obligations.CallPushesThePcOrOverflows := by
  refine fun nnn s => ⟨fun hlt => ?_, fun hfull => ?_⟩
  · rw [exec_call_of_lt nnn hlt, State.setPc, storedPc_toNat_addr12]
  · have hexec := exec_call_of_full nnn hfull
    exact ⟨hexec, execReport_of_halted hexec rfl⟩

/-- Settles O28: `Pop` gives the top entry, or none on an empty stack, and the fatal error forms no address. -/
theorem returnPopsThePcOrUnderflows : Obligations.ReturnPopsThePcOrUnderflows := by
  refine fun s => ⟨fun v rest hcons => ?_, fun hnil => ?_⟩
  · rw [exec_ret_of_cons hcons, State.setPc, storedPc_eq_pcValue]
  · have hexec := exec_ret_of_nil hnil
    exact ⟨hexec, execReport_of_halted hexec rfl⟩

/-- Settles O31: the target goes through `Addr`, so what `SetPC` stores is already reduced. -/
theorem jumpWithOffsetAddsTheRegister : Obligations.JumpWithOffsetAddsTheRegister := by
  rintro nnn s _ rfl
  refine (exec_jpV0 nnn s).trans (congrArg Host.Outcome.next ?_)
  rw [State.setPc, storedPc_of_lt _ _ (Nat.mod_lt _ (by decide))]
  rfl

/-- A stored program counter is stored again as it is (R65). -/
theorem storedPc_storedPc (p : AddrPolicy) (t : Nat) : storedPc p (storedPc p t).toNat = storedPc p t := by
  cases p with
  | wrap => rw [storedPc, storedPc, toNat_ofNat_mod_4096, Nat.mod_mod]
  | fault => rw [storedPc, storedPc, BitVec.ofNat_toNat, BitVec.setWidth_eq]

/-- Settles O29: CALL pushes the advanced `pc`, and RET pops that entry. -/
theorem callThenReturnComesBack : Obligations.CallThenReturnComesBack := by
  intro s t nnn hrunning hsp hcall h hret
  rw [step_of_fetch_decode hrunning hcall (decode_encode rfl), exec_call_of_lt (s := s.advance) nnn hsp] at h
  have hrunning' : t.halted = none := by
    cases h
    exact hrunning
  rw [step_of_fetch_decode hrunning' hret (decode_encode rfl), ← advance_eq]
  cases h
  rw [exec_ret_of_cons rfl]
  exact congrArg (fun pc => Host.Outcome.next { s with pc }) (storedPc_storedPc _ _)

end Sys2Proof.Machine
end

section
/-! SUPPORT. The shifts, the random byte and the flags (42_alu.md). -/

namespace Sys2Proof.Machine

theorem ofNat_half (v : Byte) : BitVec.ofNat 8 (v.toNat / 2) = v >>> 1 := by
  apply BitVec.eq_of_toNat_eq
  have := v.isLt
  rw [BitVec.toNat_ofNat, BitVec.toNat_ushiftRight, Nat.shiftRight_eq_div_pow]
  omega

theorem ofNat_double (v : Byte) : BitVec.ofNat 8 (2 * v.toNat % 256) = v <<< 1 := by
  apply BitVec.eq_of_toNat_eq
  rw [BitVec.toNat_ofNat, BitVec.toNat_shiftLeft, Nat.shiftLeft_eq]
  omega

theorem lowBit_eq_getLsbD (v : Byte) : lowBit v = v.getLsbD 0 := by
  rw [BitVec.getLsbD, Nat.testBit_zero, lowBit]

theorem highBit_eq_getLsbD (v : Byte) : highBit v = v.getLsbD 7 := by
  have := v.isLt
  rw [BitVec.getLsbD, Nat.testBit_eq_decide_div_mod_eq, highBit, decide_eq_decide]
  omega

/-- Settles O37: the shifted operand and the bit shifted out are the quotient and the remainder the model computes. -/
theorem shiftsWriteTheBitShiftedOutLast : Obligations.ShiftsWriteTheBitShiftedOutLast := by
  rintro x y s _ rfl
  rw [← ofNat_half, ← ofNat_double, ← lowBit_eq_getLsbD, ← highBit_eq_getLsbD]
  exact ⟨rfl, rfl⟩

/-- Settles O38: the byte drawn is ANDed with the operand, so a bit that is 0 there is 0 in the result. -/
theorem randomByteIsMasked : Obligations.RandomByteIsMasked := by
  intro x kk s
  have hV : (s.drawByte.2.setV x (s.drawByte.1 &&& kk)).getV x = s.drawByte.1 &&& kk := by
    rw [State.getV_setV, if_pos rfl]
  refine ⟨_, s.drawByte.1, rfl, hV, fun k hk => ?_, ?_⟩
  · rw [hV, BitVec.getLsbD_and, hk, Bool.and_false]
  · rw [hV]
    rfl

theorem flagByte_eq_zero_or_one (c : Bool) : flagByte c = 0 ∨ flagByte c = 1 := by cases c <;> decide

/-- A draw leaves the collision in VF (R172). -/
theorem getV_VF_drawSprite (s : State) (x y : Reg) (rows : List Byte) :
    (s.drawSprite x y rows).getV VF =
      flagByte (blitRows (s.FB, false) (s.getV x).toNat (s.getV y).toNat 0 rows).2 := by
  rw [State.drawSprite, State.getV_setV, if_pos rfl]

theorem getV_VF_drawSprite_eq_zero_or_one (s : State) (x y : Reg) (rows : List Byte) :
    (s.drawSprite x y rows).getV VF = 0 ∨ (s.drawSprite x y rows).getV VF = 1 := by
  rw [getV_VF_drawSprite]
  exact flagByte_eq_zero_or_one _

/-- Settles O39: each flag writer's last write is a flag byte to VF, but for a DRW that is refused. -/
theorem flagWritersLeaveZeroOrOneInVF : Obligations.FlagWritersLeaveZeroOrOneInVF := by
  intro i s t hflag h
  cases i
  case addReg | subReg | subnReg | shr | shl =>
    cases h
    rw [State.getV_setVFlag_VF]
    exact .inl (flagByte_eq_zero_or_one _)
  case drw x y n =>
    rw [exec_drw] at h
    obtain ⟨-, rfl⟩ | ⟨hfit, rfl⟩ := access_cases h
    · exact .inl (getV_VF_drawSprite_eq_zero_or_one s x y _)
    · exact .inr ⟨x, y, n, rfl, hfit, rfl⟩
  all_goals cases hflag

/-! ### The draw counter (log entry 2) -/

/-- A state with another draw counter. -/
def State.withDraws (s : State) (n : Nat) : State := { s with draws := n }

theorem skipIf_withDraws (s : State) (c : Bool) (n : Nat) : (s.withDraws n).skipIf c = (s.skipIf c).withDraws n := by
  cases c <;> rfl

/-- An access from I does not read the counter. -/
theorem access_draws {i : Instr} {s t u v : State} {k n : Nat}
    (h : (.next (if AccessFits s k then t else s.raise .addressRange) : Result) = .next u)
    (hv : exec i (s.withDraws n) =
      .next (if AccessFits (s.withDraws n) k then v else (s.withDraws n).raise .addressRange))
    (hdraws : v = t.withDraws n) : exec i (s.withDraws n) = .next (u.withDraws n) := by
  rw [hv, hdraws]
  obtain ⟨hfit, rfl⟩ | ⟨hfit, rfl⟩ := access_cases h
  · exact congrArg Host.Outcome.next (if_pos hfit)
  · exact congrArg Host.Outcome.next (if_neg hfit)

/-- No instruction but RND reads or writes the counter. -/
theorem exec_draws {i : Instr} {s t : State} (n : Nat) (hrnd : ∀ x kk, i ≠ .rnd x kk) (h : exec i s = .next t) :
    exec i (s.withDraws n) = .next (t.withDraws n) := by
  cases i
  case rnd x kk => exact absurd rfl (hrnd x kk)
  case jpV0 nnn =>
    rw [exec_jpV0]
    obtain ⟨hrange, rfl⟩ | ⟨hrange, rfl⟩ := exec_jpV0_cases h
    · exact congrArg Host.Outcome.next (if_pos hrange)
    · exact congrArg Host.Outcome.next (if_neg hrange)
  case call nnn =>
    obtain ⟨hfull, rfl⟩ | ⟨hlt, rfl⟩ := exec_call_cases h
    · exact exec_call_of_full (s := s.withDraws n) nnn hfull
    · exact exec_call_of_lt (s := s.withDraws n) nnn hlt
  case ret =>
    obtain ⟨hst, rfl⟩ | ⟨v, rest, hst, rfl⟩ := exec_ret_cases h
    · exact exec_ret_of_nil (s := s.withDraws n) hst
    · exact exec_ret_of_cons (s := s.withDraws n) hst
  case seByte | seReg | sneByte | sneReg | skp | sknp =>
    cases h
    exact congrArg Host.Outcome.next (skipIf_withDraws s _ n)
  case ldVxK x =>
    obtain ⟨k, hkey, rfl⟩ | ⟨hkey, rfl⟩ := exec_ldVxK_cases h
    · exact exec_ldVxK_of_pressed (s := s.withDraws n) x hkey
    · exact exec_ldVxK_of_stalled (s := s.withDraws n) x hkey
  case drw x y k =>
    rw [exec_drw] at h
    exact access_draws h (exec_drw x y k _) rfl
  case ldB x =>
    rw [exec_ldB] at h
    exact access_draws h (exec_ldB x _) rfl
  case storeRegs x =>
    rw [exec_storeRegs] at h
    exact access_draws h (exec_storeRegs x _) rfl
  case loadRegs x =>
    rw [exec_loadRegs] at h
    exact access_draws h (exec_loadRegs x _) rfl
  all_goals
    cases h
    rfl

/-- Settles O25: RND writes the byte drawn to its register and nothing else of the machine's state. -/
theorem theDrawCounterShowsOnlyInTheByteOfRND : Obligations.TheDrawCounterShowsOnlyInTheByteOfRND := by
  intro i s t n h
  by_cases hrnd : ∃ x kk, i = .rnd x kk
  · obtain ⟨x, kk, rfl⟩ := hrnd
    cases h
    refine ⟨_, rfl, rfl, .inr ⟨x, kk, rfl, ?_⟩⟩
    rw [State.getV_setV, if_pos rfl, State.setV_V, Vector.set_set]
    rfl
  · exact ⟨_, exec_draws n (fun x kk e => hrnd ⟨x, kk, e⟩) h, rfl, .inl rfl⟩

end Sys2Proof.Machine
end

section
/-! SUPPORT. Memory transfers (43_index_memory.md): what is stored and loaded, byte by byte, and that a fetch sees it
(20_memory.md R75). -/

namespace Sys2Proof.Machine

/-- Settles O41: the glyph address is below 4096, so I holds it as it is. -/
theorem fontLoadPointsAtTheGlyph : Obligations.FontLoadPointsAtTheGlyph := by
  refine fun x s => ⟨_, rfl, ?_, rfl⟩
  rw [← val_keyOf]
  exact Nat.mod_eq_of_lt ((glyphAddr_lt (s.getV x)).trans (by decide))

/-! ### Stores -/

theorem readByte_storeRegs_of_le {s t : State} {x r : Reg} (hfit : AccessFits s (x.val + 1))
    (h : exec (.storeRegs x) s = .next t) (hr : r ≤ x) : t.readByte (byteAddr s r.val) = s.getV r := by
  rw [exec_storeRegs, if_pos hfit] at h
  cases h
  have hlen := length_regsUpTo s x
  rw [← getElem_regsUpTo s x r hr]
  exact readByte_storeBytes_of_lt s (by omega) _

/-- Settles O42: the bytes stored are V0 to Vx in order, at distinct addresses. -/
theorem storeRegistersWritesV0ToVx : Obligations.StoreRegistersWritesV0ToVx := by
  refine fun x s => ⟨fun hfit => ?_, fun hfit => ?_⟩
  · have hexec := exec_storeRegs x s
    rw [if_pos hfit] at hexec
    refine ⟨_, hexec, fun r => readByte_storeRegs_of_le hfit hexec, fun a ha => ?_, rfl⟩
    refine readByte_storeBytes_of_ne s fun k hk => ha k ?_
    rw [length_regsUpTo] at hk
    exact Nat.le_of_lt_succ hk
  · rw [exec_storeRegs, if_neg hfit]
    rfl

/-- Digit `k` of the three decimal digits, hundreds first (R166). -/
theorem toNat_decimalDigits (v : Byte) {k : Nat} (hk : k < 3) :
    ((decimalDigits v)[k]'hk).toNat = v.toNat / 10 ^ (2 - k) % 10 := by
  have := v.isLt
  interval_cases k
  all_goals
    simp only [decimalDigits, List.getElem_cons_zero, List.getElem_cons_succ, BitVec.toNat_ofNat, Nat.reducePow,
      Nat.reduceSub]
    omega

theorem toNat_readByte_ldB {s t : State} {x : Reg} (hfit : AccessFits s 3) (h : exec (.ldB x) s = .next t) {k : Nat}
    (hk : k < 3) : (t.readByte (byteAddr s k)).toNat = (s.getV x).toNat / 10 ^ (2 - k) % 10 := by
  rw [exec_ldB, if_pos hfit] at h
  cases h
  rw [← toNat_decimalDigits _ hk]
  exact congrArg _ (readByte_storeBytes_of_lt s (bs := decimalDigits _) (by simp [decimalDigits]) hk)

/-- Settles O44: the bytes stored are the three decimal digits; the hundreds of a byte are below 10. -/
theorem decimalDigitsAreStored : Obligations.DecimalDigitsAreStored := by
  refine fun x s => ⟨fun hfit => ?_, fun hfit => ?_⟩
  · have hexec := exec_ldB x s
    rw [if_pos hfit] at hexec
    have hdigit {k : Nat} (hk : k < 3) := toNat_readByte_ldB hfit hexec hk
    have hhundreds : (s.getV x).toNat / 100 % 10 = (s.getV x).toNat / 100 := by
      have := (s.getV x).isLt
      omega
    refine ⟨_, hexec, (hdigit (by decide)).trans hhundreds, hdigit (by decide), ?_, fun a ha => ?_, rfl⟩
    · simpa using hdigit (k := 2) (by decide)
    · exact readByte_storeBytes_of_ne s ha
  · rw [exec_ldB, if_neg hfit]
    rfl

/-! ### Loads -/

theorem getV_setRegs_of_lt (s : State) {bs : List Byte} (hlen : bs.length ≤ 16) {r : Reg} (hr : r.val < bs.length) :
    (s.setRegs bs).getV r = bs[r.val] := by
  have h := loadInto_of_mem s.V 0 bs r.val hr (by omega)
  simp only [Nat.zero_add] at h
  exact h

theorem getV_setRegs_of_ge (s : State) {bs : List Byte} (hlen : bs.length ≤ 16) {r : Reg} (hr : bs.length ≤ r.val) :
    (s.setRegs bs).getV r = s.getV r :=
  loadInto_of_not s.V 0 bs r (by omega) (.inr (by omega))

theorem getV_loadRegs_of_le {s t : State} {x r : Reg} (hfit : AccessFits s (x.val + 1))
    (h : exec (.loadRegs x) s = .next t) (hr : r ≤ x) : t.getV r = s.readByte (byteAddr s r.val) := by
  rw [exec_loadRegs, if_pos hfit] at h
  cases h
  have hlen := length_spriteRows s (x.val + 1)
  refine (getV_setRegs_of_lt s (by omega) (hlen.symm ▸ Nat.lt_succ_of_le hr)).trans ?_
  simp only [spriteRows, List.getElem_map, List.getElem_range]

/-- Settles O43: the bytes loaded go to V0 to Vx in order. -/
theorem loadRegistersReadsV0ToVx : Obligations.LoadRegistersReadsV0ToVx := by
  refine fun x s => ⟨fun hfit => ?_, fun hfit => ?_⟩
  · have hexec := exec_loadRegs x s
    rw [if_pos hfit] at hexec
    have hlen := length_spriteRows s (x.val + 1)
    refine ⟨_, hexec, fun r => getV_loadRegs_of_le hfit hexec, fun r hr => ?_, rfl⟩
    exact getV_setRegs_of_ge s (by omega) (hlen.le.trans (Nat.succ_le_of_lt hr))
  · rw [exec_loadRegs, if_neg hfit]
    rfl

/-- Settles O45: with the quirk off I is the same at the load, so the addresses are those of the store. -/
theorem storedRegistersLoadBack : Obligations.StoredRegistersLoadBack := by
  intro x s t u v hquirk hfit hstore hu hload r hr
  have hread := readByte_storeRegs_of_le hfit hstore hr
  rw [exec_storeRegs, if_pos hfit] at hstore
  cases hstore
  have hI : u.I = s.I := by
    rw [hu]
    exact if_neg (Bool.eq_false_iff.mp hquirk)
  have hcfg : u.cfg = s.cfg := by rw [hu]; rfl
  have hfit' : AccessFits u (x.val + 1) := by rwa [AccessFits, hI, hcfg]
  rw [getV_loadRegs_of_le hfit' hload hr, byteAddr, hI, hu]
  exact hread

/-! ### Fetching what was stored -/

/-- The high byte of a fetched word is the byte at `pc`, the low byte the one after it (R67). -/
theorem bytes_of_fetch {s : State} {w : Word} (h : s.fetch = .ok w) :
    w.toNat / 256 = (s.readByte (s.pc.toNat % 4096)).toNat ∧
      w.toNat % 256 = (s.readByte ((s.pc.toNat + 1) % 4096)).toNat := by
  have hsum := toNat_of_fetch_eq_ok h
  have := (s.readByte ((s.pc.toNat + 1) % 4096)).isLt
  omega

/-- Settles O46: both bytes of the fetched word are read from the memory the store left. -/
theorem aStoredWordIsFetchedNext : Obligations.AStoredWordIsFetchedNext := by
  intro x s t hrange
  have hfetch := (fetch_eq_ok t _).mpr ⟨hrange, rfl⟩
  obtain ⟨hhigh, hlow⟩ := bytes_of_fetch hfetch
  refine ⟨fun hfit hexec => ⟨_, hfetch, fun r hr => ?_⟩, fun hfit hexec => ⟨_, hfetch, fun k hk => ?_⟩⟩
  · rw [hhigh, hlow]
    have hread := congrArg BitVec.toNat (readByte_storeRegs_of_le hfit hexec hr)
    exact ⟨fun hpc => hpc ▸ hread, fun hpc => hpc ▸ hread⟩
  · rw [hhigh, hlow]
    have hread := toNat_readByte_ldB hfit hexec hk
    exact ⟨fun hpc => hpc ▸ hread, fun hpc => hpc ▸ hread⟩

end Sys2Proof.Machine
end

section
/-! SUPPORT. The draw (44_display.md): the framebuffer and the collision a DRW leaves, and a sprite drawn twice. -/

namespace Sys2Proof.Machine

section
variable (s : State) (x y : Reg) {rows : List Byte} (hrows : rows.length ≤ 32)
include hrows

/-- A pixel of the sprite's wrapped image is toggled, any other kept (R172, R173). -/
theorem pixel_drawSprite (px : Fin 64) (py : Fin 32) :
    (spriteImage rows (s.getV x).toNat (s.getV y).toNat px py →
      (s.drawSprite x y rows).FB.pixel px py = !s.FB.pixel px py) ∧
    (¬ spriteImage rows (s.getV x).toNat (s.getV y).toNat px py →
      (s.drawSprite x y rows).FB.pixel px py = s.FB.pixel px py) := by
  obtain ⟨hon, hoff, -⟩ := blitRows_spec rows (s.FB, false) (s.getV x).toNat (s.getV y).toNat 0 hrows
  exact ⟨hon px py, hoff px py⟩

/-- VF is the collision: some pixel went from set to unset (R172). -/
theorem getV_VF_drawSprite_eq_one_iff :
    (s.drawSprite x y rows).getV VF = 1 ↔
      ∃ px py, s.FB.pixel px py = true ∧ (s.drawSprite x y rows).FB.pixel px py = false := by
  obtain ⟨-, -, hcollide⟩ := blitRows_spec rows (s.FB, false) (s.getV x).toNat (s.getV y).toNat 0 hrows
  have hflag (c : Bool) : flagByte c = 1 ↔ c = true := by cases c <;> decide
  rw [getV_VF_drawSprite, hflag, hcollide]
  simp only [Bool.false_eq_true, false_or, Nat.add_zero]
  refine exists_congr fun px => exists_congr fun py => ?_
  obtain ⟨hon, hoff⟩ := pixel_drawSprite s x y hrows px py
  by_cases himage : spriteImage rows (s.getV x).toNat (s.getV y).toNat px py
  · rw [hon himage]
    simp [himage]
  · rw [hoff himage]
    simp [himage]

end

/-- A draw changes the framebuffer and VF only. -/
theorem drawSprite_eq (s : State) (x y : Reg) (rows : List Byte) :
    s.drawSprite x y rows =
      { s with FB := (s.drawSprite x y rows).FB, V := s.V.set VF ((s.drawSprite x y rows).getV VF) } := by
  rw [getV_VF_drawSprite]
  rfl

/-- Settles O48: the draw engine's exclusive or with the wrapped image, with the collision read off the framebuffers
before and after. -/
theorem drawXorsTheWrappedImage : Obligations.DrawXorsTheWrappedImage := by
  refine fun x y n s hn => ⟨fun hfit => ?_, fun hfit => ?_⟩
  · have hrows : (spriteRows s n).length ≤ 32 := by
      rw [length_spriteRows]
      omega
    have hexec := exec_drw x y n s
    rw [if_pos hfit] at hexec
    have hVF := getV_VF_drawSprite_eq_one_iff s x y hrows
    refine ⟨_, hexec, fun px py => (pixel_drawSprite s x y hrows px py).1,
      fun px py => (pixel_drawSprite s x y hrows px py).2, hVF.mpr, fun hkept => ?_, drawSprite_eq s x y _⟩
    refine (getV_VF_drawSprite_eq_zero_or_one s x y _).resolve_right fun hone => ?_
    obtain ⟨px, py, hset, hunset⟩ := hVF.mp hone
    exact Bool.false_ne_true (hunset.symm.trans (hkept px py hset))
  · rw [exec_drw, if_neg hfit]
    rfl

/-- A coordinate register other than VF is kept by a draw. -/
theorem getV_drawSprite {r : Reg} (hr : r ≠ VF) (s : State) (x y : Reg) (rows : List Byte) :
    (s.drawSprite x y rows).getV r = s.getV r := by
  rw [State.drawSprite, State.getV_setV, if_neg hr]
  rfl

/-- The second of two equal draws toggles back what the first toggled. -/
theorem FB_drawSprite_drawSprite (s : State) {x y : Reg} (hx : x ≠ VF) (hy : y ≠ VF) {rows : List Byte}
    (hrows : rows.length ≤ 32) : ((s.drawSprite x y rows).drawSprite x y rows).FB = s.FB := by
  refine Framebuffer.ext_pixel fun px py => ?_
  obtain ⟨hon, hoff⟩ := pixel_drawSprite s x y hrows px py
  obtain ⟨hon', hoff'⟩ := pixel_drawSprite (s.drawSprite x y rows) x y hrows px py
  rw [getV_drawSprite hx, getV_drawSprite hy] at hon' hoff'
  by_cases himage : spriteImage rows (s.getV x).toNat (s.getV y).toNat px py
  · rw [hon' himage, hon himage, Bool.not_not]
  · rw [hoff' himage, hoff himage]

/-- Settles O49: I, memory and the coordinates are the same at the second draw, so it draws the same rows. -/
theorem drawingTwiceRestoresTheFramebuffer : Obligations.DrawingTwiceRestoresTheFramebuffer := by
  intro x y n s t u hn hx hy hfit h h'
  have hrows : (spriteRows s n).length ≤ 32 := by
    rw [length_spriteRows]
    omega
  rw [exec_drw, if_pos hfit] at h
  cases h
  rw [exec_drw, if_pos (show AccessFits (s.drawSprite x y _) n from hfit)] at h'
  cases h'
  have hFB := FB_drawSprite_drawSprite s hx hy hrows
  refine ⟨hFB, (getV_VF_drawSprite_eq_one_iff (s.drawSprite x y (spriteRows s n)) x y hrows).trans ?_⟩
  rw [hFB]
  exact exists_congr fun px => exists_congr fun py => and_comm

end Sys2Proof.Machine
end

section
/-! SUPPORT. The key wait (45_keypad_timers.md R184): the key taken, and the stall. -/

namespace Sys2Proof.Machine

/-- Settles O51: the key is the one `leastPressed` finds. -/
theorem keyWaitTakesTheLeastPressedKey : Obligations.KeyWaitTakesTheLeastPressedKey := fun x s k hk hleast =>
  exec_ldVxK_of_pressed x ((leastPressed_eq_some s k).mpr ⟨hk, hleast⟩)

/-- The stall puts back the `pc` that the fetch advanced, for every `pc` in range (log entry 8). -/
theorem stall_advance {s : State} (hpc : s.pc.toNat ≤ pcBound s.cfg.addrPolicy) : s.advance.stall = s := by
  have hback : storedPc s.cfg.addrPolicy (storedPc s.cfg.addrPolicy (s.pc.toNat + 2) - 2).toNat = s.pc := by
    apply BitVec.eq_of_toNat_eq
    generalize s.cfg.addrPolicy = p at hpc ⊢
    cases p with
    | wrap =>
      simp only [pcBound] at hpc
      simp only [storedPc, toNat_ofNat_mod_4096, BitVec.toNat_sub, BitVec.reduceToNat]
      omega
    | fault =>
      simp only [pcBound] at hpc
      simp only [storedPc, BitVec.toNat_ofNat, BitVec.toNat_sub, BitVec.reduceToNat]
      omega
  exact congrArg (fun pc => { s with pc }) hback

/-- Settles O52: with no key down the instruction stalls, and the stall undoes the advance. -/
theorem keyWaitStallChangesNothing : Obligations.KeyWaitStallChangesNothing := by
  intro x s hrunning hpc hf hup
  have hdec : decode (encode (.ldVxK x)) = .ok (.ldVxK x) := decode_encode rfl
  have hexec : exec (.ldVxK x) s.advance = .next s := by
    rw [exec_ldVxK_of_stalled x ((leastPressed_eq_none s.advance).mpr hup), stall_advance hpc]
  constructor
  · rw [step_of_fetch_decode hrunning hf hdec, hexec]
  · rw [stepReport_of_decode hrunning hf hdec, execReport_of_running hexec hrunning]

end Sys2Proof.Machine
end

section
/-! SUPPORT. Reset and the external events (10_state.md R36, 60_exceptions.md section 4, 70_reset_and_hazards.md). -/

namespace Sys2Proof.Machine

/-- Settles O54: the creation state, component by component. -/
theorem resetLeavesEverythingZero : Obligations.ResetLeavesEverythingZero := by
  refine ⟨fun r => ?_, rfl, rfl, rfl, rfl, rfl, fun k => ?_, Framebuffer.pixel_blank, rfl, rfl⟩
  · exact Vector.getElem_replicate _
  · exact Vector.getElem_replicate _

/-- Settles O56: the reset event replaces the machine's state and keeps the configuration and the draw counter. -/
theorem resetEventGivesTheCreationState : Obligations.ResetEventGivesTheCreationState := fun s => ⟨s.draws, rfl⟩

/-- The font region lists the glyphs one after another, five bytes each (R243). -/
theorem background_glyph : ∀ d < 16, ∀ r < 5,
    glyphRows[d]?.bind (·[r]?) = some (Memory.background (0x050 + 5 * d + r)) := by decide

/-- Settles O55: no cell is listed after creation, so memory reads as its background. -/
theorem creationMemoryHoldsZerosAndTheFont : Obligations.CreationMemoryHoldsZerosAndTheFont := by
  refine fun c => ⟨fun a ha => if_neg (by omega), fun d r hd hr => ?_⟩
  obtain ⟨rows, hrows, hb⟩ := Option.bind_eq_some_iff.mp (background_glyph d hd r hr)
  exact ⟨rows, _, hrows, hb, rfl⟩

theorem toNat_countDown (v : Byte) : (countDown v).toNat = v.toNat - 1 := by
  have := v.isLt
  rw [countDown, BitVec.toNat_ofNat]
  omega

theorem countDown_zero : countDown 0 = 0 := rfl

theorem toNat_countDown_succ {v : Byte} (hv : v ≠ 0) : (countDown v).toNat + 1 = v.toNat := by
  have : v.toNat ≠ 0 := fun h => hv (BitVec.eq_of_toNat_eq h)
  rw [toNat_countDown]
  omega

/-- Settles O57: each timer is counted down once, with floor 0. -/
theorem tickCountsBothTimersDown : Obligations.TickCountsBothTimersDown := fun _ =>
  ⟨_, rfl, fun h => (congrArg countDown h).trans countDown_zero, toNat_countDown_succ,
    fun h => (congrArg countDown h).trans countDown_zero, toNat_countDown_succ, rfl⟩

/-- Settles O58: an index of a key is a position of the key flags, any other is refused. -/
theorem setKeyChangesOneFlag : Obligations.SetKeyChangesOneFlag := by
  refine fun k p s => ⟨fun hk => ⟨_, apply_setKey_of_lt hk p s, fun j => ?_, rfl, ?_⟩, fun hk => ⟨?_, ?_⟩⟩
  · simp only [Fin.getElem_fin, Vector.getElem_set, eq_comm]
  · simp only [Event.report, State.setKey, dif_pos hk, Option.isSome_some, if_true]
  · exact apply_setKey_of_ge hk p s
  · simp [Event.report, State.setKey, not_lt.mpr hk]

/-! ### Loading an image (R246) -/

theorem nodup_span (a n : Nat) : (span a n).Nodup :=
  List.Nodup.map (fun _ _ h => Nat.add_left_cancel h) List.nodup_range

/-- Settles O59: the cells written are `0x200 + k` for the bytes of the image, at distinct addresses. -/
theorem loadCopiesTheImageOrRefusesIt : Obligations.LoadCopiesTheImageOrRefusesIt := by
  refine fun bytes s => ⟨fun hlen => ⟨_, apply_load_of_le hlen s, fun k b hb => ?_, fun a ha => ?_, rfl, ?_⟩,
    fun hlen => ⟨apply_load_of_gt hlen s, ?_⟩⟩
  · obtain ⟨hk, rfl⟩ := List.getElem?_eq_some_iff.mp hb
    refine Memory.read_writeAll_of_mem _ _ _ _ ?_ (List.mem_iff_getElem.mpr ⟨k, ?_, ?_⟩)
    · rw [List.map_fst_zip (length_span _ _).le]
      exact nodup_span _ _
    · simpa [length_span] using hk
    · simp [span, romBase]
  · refine Memory.read_writeAll_of_ne _ _ _ fun c hc hca => ?_
    obtain ⟨k, hk, hck⟩ := (mem_span _ _ _).mp (List.of_mem_zip (a := c.1) (b := c.2) hc).1
    rw [romBase] at hck
    omega
  · simp only [Event.report, State.load, if_pos (show bytes.length ≤ romMax from hlen), Option.isSome_some, if_true]
  · simp only [Event.report, State.load, if_neg (show ¬ bytes.length ≤ romMax from not_le.mpr hlen), Option.isSome_none,
      Bool.false_eq_true, if_false]

end Sys2Proof.Machine
end
